-- ==== Sys2Proof/Word.lean ====
section
/-!
DEFINITION. Sys2Proof/Word.lean: the word types of the block and of its port (spec 00_scope.md R5).
Widths only; the order of bits is decided once, in Machine/Operands.lean.
-/
namespace Sys2Proof

/-- The register `R` and the seed: 27 bits, the head (position 0) the most significant bit, which is the
numeric form `num(R)` of R16(a). -/
abbrev Reg := BitVec 27

/-- A data byte, key byte or result byte, a number 0 to 255 (R18). -/
abbrev Byte := BitVec 8

/-- A command word `W`, bit 0 its least significant bit (R28). -/
abbrev CmdWord := BitVec 32

/-- A response word `Q` (R30). -/
abbrev RspWord := BitVec 16

/-- The field `NV = W[19:16]`: a number 0 to 15, of which 0 to 8 is legal (R29, R32(f)). -/
abbrev Cover := BitVec 4

/-- A bit sequence, index 0 first (00_scope.md section 5.1): seeds as text, keystreams, key bits. -/
abbrev Bits := List Bool

end Sys2Proof
end

