-- ==== Sys2Proof/Config.lean ====
section
/-!
DEFINITION. Sys2Proof/Config.lean: what the spec leaves open and the model does not choose.
-/
namespace Sys2Proof

/-- FREE VALUE (DESIGN CHOICE, log entry 1). The value `R` holds after power-on: "unspecified: it may be any 27-bit
value" (R17, R78, 93_implementation_defined.md U4). It has no body, so nothing proved in Lean can rest on what it
is. -/
opaque Config.powerOnReg : Reg

/-- FREE VALUE (DESIGN CHOICE, log entry 2). The value that the n-th reset or DROP leaves in `R`, of which the spec says
that a model "may keep the old value, clear it, or draw a new one" (R42; R17, U4): so it may depend on the count of
draws, the first argument, and on the old value, the second. It has no body. -/
opaque Config.unspecifiedReg : Nat → Reg → Reg

end Sys2Proof
end

