-- ==== Sys2Proof/Machine/State.lean ====
section
/-!
DEFINITION. Sys2Proof/Machine/State.lean: the state of one instance of the block together with its port: what the
host will present and what it has received. Plain data (spec 10_state.md R10 to R17, 30_encoding.md R30,
70_reset_and_hazards.md R78, R89).
-/
namespace Sys2Proof.Machine

/-- The two things the host can do at a step boundary (R89): present a command word, or fire reset (R78: an event,
with no command word and no response word). -/
inductive HostEvent where
  | command (w : CmdWord)
  | reset
  deriving DecidableEq, Repr

/-- The field `STATUS = Q[11:8]` of a response (R30, R67). -/
inductive Status where
  | ok
  | illegalCommand
  | notLoaded
  deriving DecidableEq, Repr

/-- The two synchronous errors (R67). -/
inductive BlockError where
  /-- The word is an illegal encoding (R69). -/
  | illegalCommand
  /-- A keystream bit is asked for while `LOADED` is 0 (R70). -/
  | notLoaded
  deriving DecidableEq, Repr

/-- One instance of the block, and its port. The first two fields are all the state the block has (R13); `draws`
is the model's own counter for the free value of `R`; the last two are the host's side of the port, which no
command's result depends on. -/
structure State where
  /-- The register `R` (R10), in the numeric form of R16(a). -/
  r : Reg
  /-- The flag `LOADED` (R12). -/
  loaded : Bool
  /-- MODEL'S OWN: how many unspecified values `R` has been given since power-on (log entry 2). -/
  draws : Nat
  /-- INPUT: the host's events still to come, the next one first (R25, R26, R89; log entry 3). The block sees only
  the first, one a step: it has no queue (R15). -/
  incoming : List HostEvent
  /-- OUTPUT: the response words so far, oldest first, one per command (R24, R25(a); log entry 4). -/
  responses : List RspWord
  deriving DecidableEq, Repr

/-- The machine never faults: both errors of R67 are responses after which it goes on (R68), nothing is sticky and
nothing hangs (R68, R90). So there is no fault reason, nobody raises one, and that is neither safe nor unsafe: it is
what the spec says. -/
inductive Fault where
  deriving DecidableEq, Repr

/-- Why a step could have no meaning. -/
inductive Refusal where
  /-- Raised by exec alone, in the arm of an instruction that has no meaning yet; safe. No arm raises it now: every
  command of the opcode table has its meaning. -/
  | notModelled (mnemonic : String)
  deriving DecidableEq, Repr

/-- What a step and a meaning answer. -/
abbrev Result := Host.Outcome State Fault Refusal

/-- The machine right after reset (R17, R78, R79): `LOADED` is 0 and `R` is unspecified, here the free value
of power-on (log entry 1: DESIGN CHOICE, unsafe only where two power-ons are compared). Nothing has been presented or
answered (log entries 3 and 4). -/
def State.reset : State :=
  { r := Config.powerOnReg
    loaded := false
    draws := 0
    incoming := []
    responses := [] }

end Sys2Proof.Machine
end

