-- ==== Sys2Proof/Machine/Ops.lean ====
section
/-!
DEFINITION. Sys2Proof/Machine/Ops.lean: the named operations on the block's state and port: producing a response,
raising an error (the block's whole trap entry; there is no return from one, R75), writing and discarding the
register, reset (spec 30_encoding.md R30, 60_exceptions.md R67 to R71, 70_reset_and_hazards.md R78).
-/
namespace Sys2Proof.Machine

/-- The value of `STATUS` (R30). -/
def statusCode : Status → BitVec 4
  | .ok => 0#4
  | .illegalCommand => 1#4
  | .notLoaded => 2#4

/-- The response word: `Q[15:12]` is 0, `Q[11:8]` is STATUS, `Q[7:0]` is DATA (R30). -/
def responseWord (st : Status) (data : Byte) : RspWord := 0#4 ++ statusCode st ++ data

/-- The field STATUS of a response word (R30). -/
def statusField (q : RspWord) : BitVec 4 := q.extractLsb' 8 4

/-- The field DATA of a response word (R30). -/
def dataField (q : RspWord) : Byte := q.extractLsb' 0 8

/-- `respond(status, data)`: the one response of a command goes out after all earlier ones (R24, R25(a)). -/
def respond (st : Status) (data : Byte) (s : State) : State :=
  { s with responses := s.responses ++ [responseWord st data] }

/-- The status that reports an error (R67). -/
def errorStatus : BlockError → Status
  | .illegalCommand => .illegalCommand
  | .notLoaded => .notLoaded

/-- `raise <Error>` (R68): the command ends, no state of the block is written, and the one response carries the
error's code and DATA 0. The machine goes on with the next command. -/
def raiseError (e : BlockError) (s : State) : Result := .next (respond (errorStatus e) 0 s)

/-- A command performed: status OK and its DATA (R30). -/
def finish (data : Byte) (s : State) : Result := .next (respond .ok data s)

/-- `R <- v` (R10). -/
def writeReg (v : Reg) (s : State) : State := { s with r := v }

/-- `LOADED <- 0` and `R <- unspecified` (R42, R78): `R` takes the next draw of the free value. -/
def discardReg (s : State) : State :=
  { s with r := Config.unspecifiedReg s.draws s.r, loaded := false, draws := s.draws + 1 }

/-- The reset event (R78): the register is discarded; nothing else changes and no response is produced. -/
def acceptReset (s : State) : State := discardReg s

/-- A step in which the host presents nothing: the state holds (R77). -/
def holdIdle (s : State) : State := s

end Sys2Proof.Machine
end

