-- ==== Sys2Proof/Syntax.lean ====
section
/-!
DEFINITION. Sys2Proof/Syntax.lean: the six commands of the block, one constructor per row of
spec/opcode_table.json (spec 30_encoding.md R31), with the operands of their formats (R28).
-/
namespace Sys2Proof

/-- A command with its operands. The cover count keeps the four bits of its field; that it is at most 8 is
WellFormed's check. -/
inductive Instr where
  /-- NOP, format Z: do nothing (R53). -/
  | nop
  /-- LOAD, format S: write the seed into the register (R40). -/
  | load (seed : Reg)
  /-- STEP, format Z: one keystream step, the emitted bit is returned (R41). -/
  | step
  /-- XORL, format B: XOR a data byte with the next `nv` keystream bits of the register (R51). -/
  | xorl (d : Byte) (nv : Cover)
  /-- XORK, format K: XOR a data byte with the first `nv` bits of the key byte `k` (R50). -/
  | xork (d k : Byte) (nv : Cover)
  /-- DROP, format Z: discard the register (R42). -/
  | drop
  deriving DecidableEq, Repr

end Sys2Proof
end

