-- ==== Sys2Proof/WellFormed.lean ====
section
/-!
DEFINITION. Sys2Proof/WellFormed.lean: which terms of Instr are commands of the block: the further condition
`NV <= 8` of the opcode map (spec 30_encoding.md R31, R32(f)). Every other operand value is legal.
-/
namespace Sys2Proof

/-- A cover count that the opcode map allows: 0 to 8 (R29). -/
def coverLegal (nv : Cover) : Bool := decide (nv.toNat ≤ 8)

/-- The commands the block has (R31): XORL and XORK carry a legal cover count, the others are always legal. -/
def Instr.wellFormed : Instr → Bool
  | .nop => true
  | .load _ => true
  | .step => true
  | .xorl _ nv => coverLegal nv
  | .xork _ _ nv => coverLegal nv
  | .drop => true

end Sys2Proof
end

