-- ==== Sys2Proof/Machine/Flags.lean ====
section
/-!
DEFINITION. Sys2Proof/Machine/Flags.lean: the one flag, `LOADED`, and the two checks a command makes before it has
its effect (spec 10_state.md R12, 60_exceptions.md R69 to R71). No command has another flag (R13, R91).
-/
namespace Sys2Proof.Machine

/-- `LOADED <- 1`, by LOAD only (R12). -/
def setLoaded (s : State) : State := { s with loaded := true }

/-- The NOT_LOADED check (R70): a command that takes `bits` keystream bits raises NOT_LOADED when it takes any and
`LOADED` is 0; one that takes none does not read the flag. -/
def requireLoaded (bits : Nat) (s : State) (go : State → Result) : Result :=
  if 1 ≤ bits ∧ s.loaded = false then raiseError .notLoaded s else go s

/-- The cover count check of XORL and XORK (R32(f), R69). Decoding makes it first (R71), so no decoded command fails
it here; it says what a term outside the encoding would do (log entry 9). -/
def requireCover (nv : Cover) (s : State) (go : State → Result) : Result :=
  if coverLegal nv then go s else raiseError .illegalCommand s

end Sys2Proof.Machine
end

