-- ==== Sys2Proof/Machine/Operands.lean ====
section
/-!
DEFINITION. Sys2Proof/Machine/Operands.lean: the order of bits, decided once: positions of the register and of the
seed, bit positions of a byte, and the bit sequence of a byte buffer (spec 10_state.md R10, 20_memory.md R18 to R20,
30_encoding.md R27, R29).
-/
namespace Sys2Proof.Machine

/-- `R[p]`, and `seed[p]`: position 0 is the head, position 26 the tail (R10, R20). -/
def regBit (r : Reg) (p : Nat) : Bool := r.getMsbD p

/-- The register value with `f p` at position p (R10, R27). -/
def regOf (f : Nat → Bool) : Reg := BitVec.ofFnBE fun p : Fin 27 => f p

/-- The register's positions as a bit sequence, head first (R10, R20). -/
def regBits (r : Reg) : Bits := (List.range 27).map (regBit r)

/-- `bit(b, j)`: bit position j of a byte, 0 the most significant (R18). -/
def byteBit (b : Byte) (j : Nat) : Bool := b.getMsbD j

/-- `byte_of(f 0, ..., f 7)` (R18). -/
def byteOf (f : Nat → Bool) : Byte := BitVec.ofFnBE fun j : Fin 8 => f j

/-- The eight bits of a byte, most significant first (R18). -/
def byteBits (b : Byte) : Bits := (List.range 8).map (byteBit b)

/-- `bits_of(data)`: bit j of byte i at index 8i + j (00_scope.md section 5.2, R19). -/
def bitsOf (data : List Byte) : Bits := data.flatMap byteBits

/-- The global key-bit index of bit j of byte i (R19). -/
def keyIndex (i j : Nat) : Nat := 8 * i + j

/-- A keystream bit as the DATA byte of a STEP response: `Q[0]` is the bit, `Q[7:1]` is 0 (R30). -/
def bitData (k : Bool) : Byte := if k then 1 else 0

end Sys2Proof.Machine
end

