-- ==== Sys2Proof/Machine/Generator.lean ====
section
/-!
DEFINITION. Sys2Proof/Machine/Generator.lean: the keystream generator: `lfsr_step` and `generate`, and the commands
LOAD, STEP and DROP (spec 40_keystream_generator.md R36 to R42).
-/
namespace Sys2Proof.Machine

/-- The tap set, positions counted from the head, in the order they are visited (R11). -/
def taps : List Nat := [0, 19, 20, 26]

/-- The feedback bit `F` (R36): starting from 0, flipped at each tap that holds a 1. -/
def feedback (r : Reg) : Bool := taps.foldl (fun f t => if regBit r t then !f else f) false

/-- The register moved one position toward the head, the head dropped, `b` appended at the tail (R36, R91). -/
def shiftIn (r : Reg) (b : Bool) : Reg := r.shiftConcat b

/-- The keystream step `lfsr_step` (R36): the emitted bit, which is the head before the shift, and the next register
value. -/
def lfsrStep (r : Reg) : Bool × Reg := (regBit r 0, shiftIn r (feedback r))

/-- `n` keystream steps: the bits emitted, in emission order, and the register after them (R37, R51). -/
def keystream : Nat → Reg → Bits × Reg
  | 0, r => ([], r)
  | n + 1, r =>
    let first := lfsrStep r
    let rest := keystream n first.2
    (first.1 :: rest.1, rest.2)

/-- The register after `n` keystream steps: `R_n` of R37. -/
def advance (n : Nat) (r : Reg) : Reg := (keystream n r).2

/-- The function `generate(seed, n)` (R37, R38). Its seed is 27 bits by type, so a seed of another length has no
value (R39). -/
def generate (seed : Reg) (n : Nat) : Bits := (keystream n seed).1

/-- LOAD (R40). -/
def execLoad (seed : Reg) (s : State) : Result := finish 0 (setLoaded (writeReg seed s))

/-- STEP (R41): the bit returned is the head before the shift. -/
def execStep (s : State) : Result :=
  requireLoaded 1 s fun s => finish (bitData (lfsrStep s.r).1) (writeReg (lfsrStep s.r).2 s)

/-- DROP (R42). -/
def execDrop (s : State) : Result := finish 0 (discardReg s)

end Sys2Proof.Machine
end

