-- ==== Sys2Proof/Machine/Cipher.lean ====
section
/-!
DEFINITION. Sys2Proof/Machine/Cipher.lean: the bitwise XOR cipher: `xor_cell`, `transform`, the cover count and
`xor_byte`, and the commands XORK and XORL (spec 41_xor_cipher.md R45 to R52).
-/
namespace Sys2Proof.Machine

/-- The XOR cell (R45): data bit, key bit, cover bit. -/
def xorCell (d k v : Bool) : Bool := Bool.xor d (v && k)

/-- One byte of `transform`: byte index i of a buffer met by the keystream `ks` (R46). A bit whose global key-bit
index is not within the keystream passes through (R47). -/
def transformByte (ks : Bits) (i : Nat) (b : Byte) : Byte :=
  byteOf fun j => xorCell (byteBit b j) (ks.getD (keyIndex i j) false) (decide (keyIndex i j < ks.length))

/-- The function `transform(data, ks)` (R46). -/
def transform (data : List Byte) (ks : Bits) : List Byte :=
  data.zipIdx.map fun p => transformByte ks p.2 p.1

/-- The cover count of byte i of a buffer met by a keystream of L bits: `min(8, max(0, L - 8i))`, the subtraction
clamped at 0 as R91 says (R48, R81). -/
def coverCount (i L : Nat) : Nat := min 8 (L - 8 * i)

/-- The byte-level function of both XOR commands (R49): the first `nv` bit positions meet the key bits `kb`, the
others pass through. -/
def xorByte (d : Byte) (kb : Bits) (nv : Nat) : Byte :=
  byteOf fun j => xorCell (byteBit d j) (kb.getD j false) (decide (j < nv))

/-- `mask(NV)` of R50: ones in the first `nv` bit positions. -/
def coverMask (nv : Nat) : Byte := 0xFF#8 <<< (8 - nv)

/-- XORL (R51): exactly `NV` keystream steps, whose bits meet the data bits from the most significant on. -/
def execXorl (d : Byte) (nv : Cover) (s : State) : Result :=
  requireCover nv s fun s => requireLoaded nv.toNat s fun s =>
    finish (xorByte d (keystream nv.toNat s.r).1 nv.toNat) (writeReg (keystream nv.toNat s.r).2 s)

/-- XORK (R50): the key bits are the first `NV` bits of the key byte; the block's state is neither read nor
written. -/
def execXork (d k : Byte) (nv : Cover) (s : State) : Result :=
  requireCover nv s fun s => finish (xorByte d ((byteBits k).take nv.toNat) nv.toNat) s

end Sys2Proof.Machine
end

