-- ==== Sys2Proof/Machine/Compose.lean ====
section
/-!
DEFINITION. Sys2Proof/Machine/Compose.lean: the idle command NOP and the composed function `cipher`
(spec 42_composition_and_idle.md R53, R54).
-/
namespace Sys2Proof.Machine

/-- NOP (R53): no state is read or written. -/
def execNop (s : State) : Result := finish 0 s

/-- The function `cipher(seed, data)` (R54): the generator, then the cipher. It encrypts and decrypts. -/
def cipher (seed : Reg) (data : List Byte) : List Byte := transform data (generate seed (8 * data.length))

end Sys2Proof.Machine
end

