-- ==== Sys2Proof/Machine/Dispatch.lean ====
section
/-!
DEFINITION. Sys2Proof/Machine/Dispatch.lean: one arm per command (spec 30_encoding.md R31).
-/
namespace Sys2Proof.Machine

def exec (i : Instr) (s : State) : Host.Outcome State Fault Refusal :=
  match i with
  | .nop => Sys2Proof.Machine.execNop s
  | .load seed => Sys2Proof.Machine.execLoad seed s
  | .step => Sys2Proof.Machine.execStep s
  | .xorl d nv => Sys2Proof.Machine.execXorl d nv s
  | .xork d k nv => Sys2Proof.Machine.execXork d k nv s
  | .drop => Sys2Proof.Machine.execDrop s

end Sys2Proof.Machine
end

