-- ==== Sys2Proof/Decode.lean ====
section
/-!
DEFINITION. Sys2Proof/Decode.lean: the decoder, total on all 32-bit words and rejecting by name, the encoder,
and the opcode map's Match and Mask (spec 30_encoding.md R27 to R33, R35). Decoding reads the word alone (R33).
-/
namespace Sys2Proof

/-- Why a word is an illegal encoding, after the clauses of R32. The names, and which one a word answers, are the
model's (log entry 12, DESIGN CHOICE): the block reports none of this (R67: no sub-code). -/
inductive DecodeError where
  /-- R32(a): the opcode `W[31:28]` is 0x6 to 0xF. -/
  | reservedOpcode
  /-- R32(b): `W[27]` is 1. -/
  | reservedBit27
  /-- R32(c), (d), (e): a reserved bit of the operand field is 1. -/
  | reservedOperandBits
  /-- R32(f): the cover count of XORL or XORK is 9 to 15. -/
  | coverCount
  deriving DecidableEq, Repr

/-- `OP = W[31:28]` (R28). -/
def fieldOp (w : CmdWord) : BitVec 4 := w.extractLsb' 28 4

/-- The operand field `W[26:0]`, which LOAD reads as `SEED` (R27, R28). -/
def fieldSeed (w : CmdWord) : Reg := w.extractLsb' 0 27

/-- `W[26:20]`, reserved in formats B and K (R28). -/
def fieldHigh (w : CmdWord) : BitVec 7 := w.extractLsb' 20 7

/-- `NV = W[19:16]` (R29). -/
def fieldNv (w : CmdWord) : Cover := w.extractLsb' 16 4

/-- `K = W[15:8]` (R29); reserved in format B. -/
def fieldK (w : CmdWord) : Byte := w.extractLsb' 8 8

/-- `D = W[7:0]` (R29). -/
def fieldD (w : CmdWord) : Byte := w.extractLsb' 0 8

/-- Format Z: the whole operand field is reserved (R28, R32(c)). -/
def decodeZ (i : Instr) (w : CmdWord) : Except DecodeError Instr :=
  if fieldSeed w = 0 then .ok i else .error .reservedOperandBits

/-- Format B: data byte and cover count (R28, R32(d), (f)). -/
def decodeB (w : CmdWord) : Except DecodeError Instr :=
  if fieldHigh w = 0 ∧ fieldK w = 0 then
    if coverLegal (fieldNv w) then .ok (.xorl (fieldD w) (fieldNv w)) else .error .coverCount
  else .error .reservedOperandBits

/-- Format K: data byte, key byte and cover count (R28, R32(e), (f)). -/
def decodeK (w : CmdWord) : Except DecodeError Instr :=
  if fieldHigh w = 0 then
    if coverLegal (fieldNv w) then .ok (.xork (fieldD w) (fieldK w) (fieldNv w)) else .error .coverCount
  else .error .reservedOperandBits

/-- The decode function of R33, clause for clause; the name of a rejection is the model's (log entry 12, DESIGN
CHOICE). -/
def decode (w : CmdWord) : Except DecodeError Instr :=
  if w.getLsbD 27 then .error .reservedBit27
  else match (fieldOp w).toNat with
    | 0 => decodeZ .nop w
    | 1 => .ok (.load (fieldSeed w))
    | 2 => decodeZ .step w
    | 3 => decodeB w
    | 4 => decodeK w
    | 5 => decodeZ .drop w
    | _ => .error .reservedOpcode

/-- The opcode of a command (R31). -/
def opcode : Instr → BitVec 4
  | .nop => 0x0#4
  | .load _ => 0x1#4
  | .step => 0x2#4
  | .xorl _ _ => 0x3#4
  | .xork _ _ _ => 0x4#4
  | .drop => 0x5#4

/-- The 27-bit operand field of a command, by format (R28). -/
def operandField : Instr → BitVec 27
  | .nop => 0#27
  | .load seed => seed
  | .step => 0#27
  | .xorl d nv => 0#7 ++ nv ++ 0#8 ++ d
  | .xork d k nv => 0#7 ++ nv ++ k ++ d
  | .drop => 0#27

/-- The command word: opcode, the reserved bit 27 at 0, operand field (R28). -/
def encode (i : Instr) : CmdWord := opcode i ++ 0#1 ++ operandField i

/-- The column Match of the opcode map (R31). -/
def matchOf : Instr → CmdWord
  | .nop => 0x00000000#32
  | .load _ => 0x10000000#32
  | .step => 0x20000000#32
  | .xorl _ _ => 0x30000000#32
  | .xork _ _ _ => 0x40000000#32
  | .drop => 0x50000000#32

/-- The column Mask of the opcode map (R31). -/
def maskOf : Instr → CmdWord
  | .nop => 0xFFFFFFFF#32
  | .load _ => 0xF8000000#32
  | .step => 0xFFFFFFFF#32
  | .xorl _ _ => 0xFFF0FF00#32
  | .xork _ _ _ => 0xFFF00000#32
  | .drop => 0xFFFFFFFF#32

/-- The shorthand `XORL D` (R35): the full byte is covered. -/
def xorlFull (d : Byte) : Instr := .xorl d 8

/-- The shorthand `XORK D, K` (R35). -/
def xorkFull (d k : Byte) : Instr := .xork d k 8

/-- The shorthand `KSBYTE` (R35): the next eight keystream bits as a byte. -/
def ksbyte : Instr := .xorl 0x00 8

/-- A program's encoding: the sequence of its command words (R34). -/
def assemble (is : List Instr) : List CmdWord := is.map encode

/-- The command word that the `nbits` table bits `w` stand for, every bit above them 0. -/
def tableWord (nbits w : Nat) : CmdWord := BitVec.ofNat 32 (w % 2 ^ nbits)

/-- What the decoder reads from a table row's word; none where it refuses. -/
def decodeTableWord (nbits w : Nat) : Option Instr :=
  match decode (tableWord nbits w) with
  | .ok i => some i
  | .error _ => none

end Sys2Proof
end

