-- ==== Sys2Proof/Machine/Fetch.lean ====
section
/-!
DEFINITION. Sys2Proof/Machine/Fetch.lean: what the port brings to a step. The block fetches nothing (spec
10_state.md R14): it takes the event the host presents, and decodes a command word before any state is examined
(60_exceptions.md R71).
-/
namespace Sys2Proof.Machine

/-- What one step has to do, with the state from which the event has been taken. -/
inductive Fetched where
  /-- The host presents nothing (R77). -/
  | idle
  /-- The host fires reset (R78). -/
  | reset (s : State)
  /-- The word presented is an illegal encoding (R69). -/
  | illegal (s : State)
  /-- The word presented is a legal command (R33). -/
  | perform (i : Instr) (s : State)
  deriving DecidableEq, Repr

/-- A command word taken from the port, decoded: every illegal encoding, whatever its reason, is illegal (R32). -/
def classify (w : CmdWord) (s : State) : Fetched :=
  match decode w with
  | .ok i => .perform i s
  | .error _ => .illegal s

/-- Take the host's next event (R24, R25, R78). -/
def fetch (s : State) : Fetched :=
  match s.incoming with
  | [] => .idle
  | .reset :: rest => .reset { s with incoming := rest }
  | .command w :: rest => classify w { s with incoming := rest }

/-- The state with a command word as the host's next event. -/
def present (w : CmdWord) (s : State) : State := { s with incoming := .command w :: s.incoming }

end Sys2Proof.Machine
end

