-- ==== Sys2Proof/Machine/Step.lean ====
section
/-!
DEFINITION. Sys2Proof/Machine/Step.lean: one step: one event of the host, atomically (spec 20_memory.md R24, R25,
70_reset_and_hazards.md R78).
-/
namespace Sys2Proof.Machine

/-- One step. A command is performed completely and answered once; an illegal word is answered ILLEGAL_COMMAND (R69);
reset is taken between commands (R78); with nothing presented the state holds (R77). -/
def step (s : State) : Host.Outcome State Fault Refusal :=
  match fetch s with
  | .idle => .next (holdIdle s)
  | .reset s => .next (acceptReset s)
  | .illegal s => raiseError .illegalCommand s
  | .perform i s => exec i s

/-- The state in which the host presents the table word `w` next (log entry 5: a program comes from the host). -/
def State.withFetchWord (s : State) (nbits w : Nat) : State := present (tableWord nbits w) s

end Sys2Proof.Machine
end

