-- ==== Sys2Proof/Machine/HostSide.lean ====
section
/-!
DEFINITION. Sys2Proof/Machine/HostSide.lean: what the spec has the host compute: the check of a seed given as text,
the cover count as an operand, and the command sequences that realise the functions (spec 42_composition_and_idle.md
R55, R60 to R62, 70_reset_and_hazards.md R81, R83, R86). No part of the block.
-/
namespace Sys2Proof.Machine

/-- Why the host rejects a seed given as text, before it issues any command (R83). -/
inductive SeedTextError where
  | invalidLength
  | invalidCharacter
  deriving DecidableEq, Repr

/-- The seed a text stands for: exactly 27 characters, each 0 or 1, the character at index p the seed bit p (R20,
R83). Where a text fails both checks the length is reported (log entry 10). -/
def seedOfText (text : List Char) : Except SeedTextError Reg :=
  if text.length = 27 then
    if text.all (fun c => c == '0' || c == '1') then .ok (regOf fun p => text.getD p '0' == '1')
    else .error .invalidCharacter
  else .error .invalidLength

/-- The cover count the host puts into the command for byte i (R48, R81). -/
def coverOperand (i L : Nat) : Cover := BitVec.ofNat 4 (coverCount i L)

/-- `LOAD seed` and n STEPs (R60). -/
def generateProgram (seed : Reg) (n : Nat) : List Instr := .load seed :: List.replicate n .step

/-- One XORL per byte, in index order, for a keystream of L bits (R62, R85). -/
def xorlCommands (data : List Byte) (L : Nat) : List Instr :=
  data.zipIdx.map fun p => .xorl p.1 (coverOperand p.2 L)

/-- `LOAD seed` and one XORL per byte (R62). -/
def transformProgram (seed : Reg) (data : List Byte) (L : Nat) : List Instr := .load seed :: xorlCommands data L

/-- The composed cipher as commands, without the optional DROP: every cover count is 8 (R55). The same sequence
decrypts (R86). -/
def cipherProgram (seed : Reg) (data : List Byte) : List Instr := .load seed :: data.map xorlFull

/-- One XORK per byte with the key bytes the host supplies, for a keystream of L bits (R61). -/
def xorkCommands (data keys : List Byte) (L : Nat) : List Instr :=
  (data.zip keys).zipIdx.map fun p => .xork p.1.1 p.1.2 (coverOperand p.2 L)

/-- The host presents a program, one command word a step, before whatever else it has to do (R25, R34). -/
def presentAll (is : List Instr) (s : State) : State :=
  { s with incoming := (assemble is).map .command ++ s.incoming }

end Sys2Proof.Machine
end

