-- ==== Sys2Proof/Machine/Representations.lean ====
section
/-!
DEFINITION. Sys2Proof/Machine/Representations.lean: the two other ways to hold `R` that the spec gives beside the
sequence of bits: as a number and as a ring buffer (spec 10_state.md R16). The step of the machine uses neither; that
they compute the same keystream is stated for the provers.
-/
namespace Sys2Proof.Machine

/-- The keystream step on the number `num(R)` (R16(a)): the emitted bit and the next number. -/
def numStep (v : Nat) : Nat × Nat :=
  ((v >>> 26) &&& 1,
   ((v <<< 1) % 2 ^ 27) ||| (((v >>> 26) ^^^ (v >>> 7) ^^^ (v >>> 6) ^^^ v) &&& 1))

/-- A ring buffer (R16(b)): 27 cells and the index of the head. -/
structure Ring where
  cells : Vector Bool 27
  head : Fin 27
  deriving DecidableEq, Repr

/-- The cell that holds position i: `(h + i) mod 27` (R16(b)). -/
def ringIndex (q : Ring) (i : Nat) : Fin 27 := Fin.ofNat 27 (q.head.val + i)

/-- Position i of the register a ring buffer holds (R16(b)). -/
def ringBit (q : Ring) (i : Nat) : Bool := q.cells.get (ringIndex q i)

/-- The register a ring buffer holds (R16(b)). -/
def ringReg (q : Ring) : Reg := regOf (ringBit q)

/-- LOAD on the ring buffer: `P <- seed`, `h <- 0` (R16(b)). -/
def ringLoad (seed : Reg) : Ring := { cells := Vector.ofFn fun p : Fin 27 => regBit seed p, head := 0 }

/-- The keystream step on the ring buffer (R16(b)): the cell the head leaves takes the feedback bit. -/
def ringStep (q : Ring) : Bool × Ring :=
  (ringBit q 0,
   { cells := q.cells.set q.head
       (Bool.xor (Bool.xor (Bool.xor (ringBit q 0) (ringBit q 19)) (ringBit q 20)) (ringBit q 26))
     head := ringIndex q 1 })

end Sys2Proof.Machine
end

