-- ==== Sys2Proof/Machine/System.lean ====
section
/-!
DEFINITION. Sys2Proof/Machine/System.lean: several instances of the block (spec 60_exceptions.md R77): each has its
own `R`, `LOADED` and command stream, and they share nothing. `N_INST` is the length of the list (log entry 7).
-/
namespace Sys2Proof.Machine

/-- A system of independent instances. -/
abbrev System := List State

/-- A system of n instances after reset (R77, R78). -/
def systemReset (n : Nat) : System := List.replicate n State.reset

/-- One step of one instance; the others do not move (R77). -/
def stepInstance (i : Nat) (sys : System) : System :=
  match sys[i]? with
  | none => sys
  | some s =>
    match step s with
    | .next t => sys.set i t
    | .fault _ => sys
    | .refused _ => sys

/-- Steps of the instances named in the schedule, in its order. -/
def runSchedule : List Nat → System → System
  | [], sys => sys
  | i :: rest, sys => runSchedule rest (stepInstance i sys)

end Sys2Proof.Machine
end

