-- ==== Sys2Proof/Machine/Written.lean ====
section
/-!
DEFINITION. Sys2Proof/Machine/Written.lean: the written form of commands (spec 30_encoding.md R34): mnemonic, then
data, key and cover count in that order, which is not the order of the fields in the word.
-/
namespace Sys2Proof.Machine

/-- One hex digit, in capitals as the spec's examples have it. -/
def hexDigit (v : BitVec 4) : Char :=
  ['0', '1', '2', '3', '4', '5', '6', '7', '8', '9', 'A', 'B', 'C', 'D', 'E', 'F'].getD v.toNat '0'

/-- A byte as 0x and two hex digits (R34). -/
def writtenByte (b : Byte) : List Char :=
  ['0', 'x', hexDigit (b.extractLsb' 4 4), hexDigit (b.extractLsb' 0 4)]

/-- The cover count as a decimal number; every legal one has one digit (R34). -/
def writtenCover (nv : Cover) : List Char := Nat.toDigits 10 nv.toNat

/-- A seed as a string of 0 and 1, head first, in double quotes (R20, R34). -/
def writtenSeed (seed : Reg) : List Char :=
  '"' :: ((regBits seed).map fun b => if b then '1' else '0') ++ ['"']

/-- The separator between two operands. -/
def comma : List Char := [',', ' ']

/-- The written form of a command (R34), as a list of characters. -/
def written : Instr → List Char
  | .nop => ['N', 'O', 'P']
  | .load seed => ['L', 'O', 'A', 'D', ' '] ++ writtenSeed seed
  | .step => ['S', 'T', 'E', 'P']
  | .xorl d nv => ['X', 'O', 'R', 'L', ' '] ++ writtenByte d ++ comma ++ writtenCover nv
  | .xork d k nv => ['X', 'O', 'R', 'K', ' '] ++ writtenByte d ++ comma ++ writtenByte k ++ comma ++ writtenCover nv
  | .drop => ['D', 'R', 'O', 'P']

end Sys2Proof.Machine
end

