-- ==== Sys2Proof/Safety.lean ====
section
/-!
DEFINITION. Sys2Proof/Safety.lean: the terms in which claims speak of runs: which response words may occur, what the
host still has to present, which states no host can tell apart (spec 30_encoding.md R30, 20_memory.md R24, 10_state.md
R17).
-/
namespace Sys2Proof.Safety

open Sys2Proof.Machine

/-- The response words that occur (R30): 0x0000 to 0x00FF, 0x0100 and 0x0200. -/
def occurs (q : RspWord) : Bool := decide (q.toNat ≤ 0x00FF) || q == 0x0100#16 || q == 0x0200#16

/-- Every response so far is a word that may occur (R30). -/
def ResponsesOccur (s : State) : Prop := ∀ q ∈ s.responses, occurs q = true

/-- An event that is a command, legal or not (R78: reset has no command word). -/
def isCommand : HostEvent → Bool
  | .command _ => true
  | .reset => false

/-- The commands the host has still to present. -/
def waiting (s : State) : Nat := (s.incoming.filter isCommand).length

/-- Two states that no host can tell apart (R17): they differ at most in a register value that no rule reads, and in
the model's counter. -/
def Indistinguishable (s t : State) : Prop :=
  s.loaded = t.loaded ∧ (s.loaded = true → s.r = t.r) ∧ s.incoming = t.incoming ∧ s.responses = t.responses

/-- The machine runs `n` steps from `s` and reaches `t`. -/
def Reaches (n : Nat) (s t : State) : Prop := Host.Core.run Sys2Proof.core n s = .next t

/-- How many keystream bits a command takes when it is performed (R41, R51, R63). -/
def bitsTaken : Instr → Nat
  | .nop => 0
  | .load _ => 0
  | .step => 1
  | .xorl _ nv => nv.toNat
  | .xork _ _ _ => 0
  | .drop => 0

/-- A command that may stand between a LOAD and the end of its keystream (R63): neither LOAD nor DROP. -/
def continues : Instr → Bool
  | .nop => true
  | .load _ => false
  | .step => true
  | .xorl _ _ => true
  | .xork _ _ _ => true
  | .drop => false

/-- The response word of a STEP that emitted the bit `k` (R30). -/
def bitWord (k : Bool) : RspWord := if k then 0x0001 else 0x0000

/-- The response words with STATUS 0 that carry these DATA bytes, in order (R30). -/
def dataWords (data : List Byte) : List RspWord := data.map (BitVec.setWidth 16)

/-- The state after a command that wrote none of the block's state and got the response `q`. -/
def answered (q : RspWord) (s : State) : State := { s with responses := s.responses ++ [q] }

end Sys2Proof.Safety
end

