-- ==== Sys2Proof/Certificates/Slice0/Obligations.lean ====
section
/-!
DEFINITION. Sys2Proof/Certificates/Slice0/Obligations.lean: the statements for the provers, from the numbered rules
of the spec. A response word is written as the number the rule gives; `answered q s` is s with one more response, so
a statement that ends in it states the whole frame.
-/

open Sys2Proof Sys2Proof.Machine Sys2Proof.Safety

/-! ## Encoding -/

/-- Decoding an encoded well-formed command gives it back, with every operand (R27, R28, R29, R31). -/
def Obligations.DecodeOfEncode : Prop :=
  ∀ i : Instr, i.wellFormed = true → decode (encode i) = .ok i

/-- A word that decodes is the encoding of the well-formed command it decodes to: no two words mean the same command
and no bit of a word is ignored (R32, R33). -/
def Obligations.EncodeOfDecode : Prop :=
  ∀ (w : CmdWord) (i : Instr), decode w = .ok i → i.wellFormed = true ∧ encode i = w

/-- R31, row by row, the Match, Mask and further condition of the opcode map written out; and that a word is at most
one command. -/
def Obligations.OpcodeMapRows : Prop :=
  ∀ w : CmdWord,
    (decode w = .ok .nop ↔ w &&& 0xFFFFFFFF#32 = 0x00000000#32) ∧
    ((∃ seed, decode w = .ok (.load seed)) ↔ w &&& 0xF8000000#32 = 0x10000000#32) ∧
    (decode w = .ok .step ↔ w &&& 0xFFFFFFFF#32 = 0x20000000#32) ∧
    ((∃ d nv, decode w = .ok (.xorl d nv)) ↔
      w &&& 0xFFF0FF00#32 = 0x30000000#32 ∧ (w.extractLsb' 16 4).toNat ≤ 8) ∧
    ((∃ d k nv, decode w = .ok (.xork d k nv)) ↔
      w &&& 0xFFF00000#32 = 0x40000000#32 ∧ (w.extractLsb' 16 4).toNat ≤ 8) ∧
    (decode w = .ok .drop ↔ w &&& 0xFFFFFFFF#32 = 0x50000000#32) ∧
    (6 ≤ (w.extractLsb' 28 4).toNat → ∃ e, decode w = .error e) ∧
    ∀ i j, decode w = .ok i → decode w = .ok j → i = j

/-- R32, the six clauses: a word is an illegal encoding exactly when one of them holds. -/
def Obligations.IllegalEncodingClauses : Prop :=
  ∀ w : CmdWord, (∃ e, decode w = .error e) ↔
    0x6 ≤ (w.extractLsb' 28 4).toNat ∨
    w.getLsbD 27 = true ∨
    ((w.extractLsb' 28 4 = 0x0#4 ∨ w.extractLsb' 28 4 = 0x2#4 ∨ w.extractLsb' 28 4 = 0x5#4) ∧
      w.extractLsb' 0 27 ≠ 0#27) ∨
    (w.extractLsb' 28 4 = 0x3#4 ∧ (w.extractLsb' 20 7 ≠ 0#7 ∨ w.extractLsb' 8 8 ≠ 0#8)) ∨
    (w.extractLsb' 28 4 = 0x4#4 ∧ w.extractLsb' 20 7 ≠ 0#7) ∨
    ((w.extractLsb' 28 4 = 0x3#4 ∨ w.extractLsb' 28 4 = 0x4#4) ∧ 9 ≤ (w.extractLsb' 16 4).toNat)

/-- R32's counting of the legal words. -/
def Obligations.LegalWordCount : Prop :=
  Nat.card { w : CmdWord // ∃ i, decode w = .ok i } = 1 + 2 ^ 27 + 1 + 9 * 2 ^ 8 + 9 * 2 ^ 16 + 1

/-- Words written out in the spec decode to the commands they stand for, and the nearest illegal words do not decode
(V8, R31 to R33). Which `DecodeError` an illegal word answers is the model's choice and no rule's (log entry 12, DESIGN
CHOICE: the block reports no reason, R67). -/
def Obligations.WrittenWordsDecode : Prop :=
  decode 0x00000000 = .ok .nop ∧ decode 0x15555555 = .ok (.load 0x5555555) ∧
  decode 0x20000000 = .ok .step ∧ decode 0x30080048 = .ok (.xorl 0x48 8) ∧
  decode 0x4004FFA5 = .ok (.xork 0xA5 0xFF 4) ∧ decode 0x50000000 = .ok .drop ∧
  decode 0x00000001 = .error .reservedOperandBits ∧ decode 0x1D555555 = .error .reservedBit27 ∧
  decode 0x30180000 = .error .reservedOperandBits ∧ decode 0x30090000 = .error .coverCount ∧
  decode 0x60000000 = .error .reservedOpcode

/-- R27: seed index p is word bit 26 - p of the LOAD word, the field is the seed read as a binary numeral, and the
three examples. -/
def Obligations.SeedPacking : Prop :=
  (∀ (seed : Reg) (p : Nat), p < 27 → regBit seed p = (encode (.load seed)).getLsbD (26 - p)) ∧
  (∀ (w : CmdWord) (seed : Reg), decode w = .ok (.load seed) →
    (∀ p < 27, regBit seed p = w.getLsbD (26 - p)) ∧
    (w.extractLsb' 0 27).toNat = ((List.range 27).map fun p => if regBit seed p then 2 ^ (26 - p) else 0).sum) ∧
  encode (.load (regOf fun p => decide (p % 2 = 0))) = 0x15555555 ∧
  encode (.load (regOf fun p => decide (p = 0))) = 0x14000000 ∧
  encode (.load (regOf fun p => decide (p = 26))) = 0x10000001

/-- R29: bit j of D is word bit 7 - j, bit j of K is word bit 15 - j, NV is W[19:16] and only 0 to 8 decodes. -/
def Obligations.ByteOperandPlaces : Prop :=
  (∀ (w : CmdWord) (d : Byte) (nv : Cover), decode w = .ok (.xorl d nv) →
    (∀ j < 8, byteBit d j = w.getLsbD (7 - j)) ∧ nv = w.extractLsb' 16 4 ∧ nv.toNat ≤ 8) ∧
  (∀ (w : CmdWord) (d k : Byte) (nv : Cover), decode w = .ok (.xork d k nv) →
    (∀ j < 8, byteBit d j = w.getLsbD (7 - j)) ∧ (∀ j < 8, byteBit k j = w.getLsbD (15 - j)) ∧
    nv = w.extractLsb' 16 4 ∧ nv.toNat ≤ 8)

/-- R35: the shorthands cover the full byte, and KSBYTE returns the next eight keystream bits, the first bit the most
significant. -/
def Obligations.Shorthands : Prop :=
  (∀ d, xorlFull d = .xorl d 8) ∧ (∀ d k, xorkFull d k = .xork d k 8) ∧ encode ksbyte = 0x30080000 ∧
  ∀ s : State, s.loaded = true →
    ∃ q : Byte, (∀ j < 8, byteBit q j = (generate s.r 8).getD j false) ∧
      exec ksbyte s = .next (answered (q.setWidth 16) { s with r := advance 8 s.r })

/-! ## The step of the machine -/

/-- When the word at the port decodes, the step is exec of the command, with the event taken from the host's script
and nothing else around it (R24, R33). -/
def Obligations.StepRunsDecodedCommand : Prop :=
  ∀ (s : State) (w : CmdWord) (rest : List HostEvent) (i : Instr),
    s.incoming = .command w :: rest → decode w = .ok i → step s = exec i { s with incoming := rest }

/-- R69 and R71: an illegal word is answered ILLEGAL_COMMAND, whatever the state, and nothing of the block is
written; the examples of both rules, where a legal STEP or XORL would be answered NOT_LOADED. -/
def Obligations.IllegalWordIsAnswered : Prop :=
  (∀ (s : State) (w : CmdWord) (rest : List HostEvent) (e : DecodeError),
    s.incoming = .command w :: rest → decode w = .error e →
      step s = .next (answered 0x0100 { s with incoming := rest })) ∧
  ∀ w ∈ [0x60000000#32, 0xFFFFFFFF#32, 0x20000001#32, 0x1D555555#32, 0x30090000#32, 0x30080100#32, 0x00000001#32],
    ∀ s : State, step (s.withFetchWord 32 w.toNat) = .next (answered 0x0100 s)

/-- A table word placed by withFetchWord is the one the next step runs. -/
def Obligations.FetchWordRuns : Prop :=
  ∀ (s : State) (nbits w : Nat) (i : Instr), decodeTableWord nbits w = some i →
    step (s.withFetchWord nbits w) = exec i s

/-- R78: reset, taken between commands, clears LOADED, leaves some value in R, produces no response and changes
nothing else but the model's own draw counter (log entry 2). -/
def Obligations.ResetEventEffect : Prop :=
  ∀ (s : State) (rest : List HostEvent), s.incoming = .reset :: rest →
    ∃ v : Reg, step s = .next { s with incoming := rest, loaded := false, r := v, draws := s.draws + 1 }

/-- R77: a block that is given no word holds its state. -/
def Obligations.IdleStepHolds : Prop :=
  ∀ s : State, s.incoming = [] → step s = .next s

/-- R79: after reset LOADED is 0, and the first command is answered by its rule: NOP, LOAD, DROP, XORK and XORL with
NV = 0 succeed, STEP and XORL with NV >= 1 are answered NOT_LOADED, illegal words ILLEGAL_COMMAND. -/
def Obligations.FirstCommandAfterReset : Prop :=
  State.reset.loaded = false ∧
  (∀ i : Instr, i.wellFormed = true → ∃ t : State,
    step (State.reset.withFetchWord 32 (encode i).toNat) = .next t ∧
    ∃ q : RspWord, t.responses = [q] ∧
      (q = 0x0200 ↔ i = .step ∨ ∃ d nv, i = .xorl d nv ∧ 1 ≤ nv.toNat) ∧ (q ≠ 0x0200 → statusField q = 0)) ∧
  ∀ (w : CmdWord) (e : DecodeError), decode w = .error e →
    ∃ t : State, step (State.reset.withFetchWord 32 w.toNat) = .next t ∧ t.responses = [0x0100]

/-- R68, R90: nothing stops or hangs the machine: from every state a step answers a next state. -/
def Obligations.StepAlwaysAnswers : Prop :=
  ∀ s : State, ∃ t : State, step s = .next t

/-- R24, R30: every command, whatever the state, is answered exactly once, with a word that may occur, and leaves the
host's script alone. -/
def Obligations.OneResponsePerPerformedCommand : Prop :=
  ∀ (i : Instr) (s : State), ∃ (q : RspWord) (t : State),
    exec i s = .next t ∧ t.responses = s.responses ++ [q] ∧ occurs q = true ∧ t.incoming = s.incoming

/-- R30: every step keeps it that only the response words 0x0000 to 0x00FF, 0x0100 and 0x0200 occur. -/
def Obligations.StepKeepsResponsesOccur : Prop :=
  ∀ s t : State, ResponsesOccur s → step s = .next t → ResponsesOccur t

/-- The invariant of StepKeepsResponsesOccur holds at reset. -/
def Obligations.ResetResponsesOccur : Prop := ResponsesOccur State.reset

/-- R24, R25(a): in every step the responses already given stay, and responses given plus commands still to come stay
the same number. -/
def Obligations.ResponsesAccountForCommands : Prop :=
  ∀ s t : State, step s = .next t →
    s.responses <+: t.responses ∧ t.responses.length + waiting t = s.responses.length + waiting s

/-- R17, R56: two machines that differ only in a register value that no LOAD wrote cannot be told apart by any
sequence of events. -/
def Obligations.UnspecifiedRegisterUnobservable : Prop :=
  ∀ (n : Nat) (s t : State), Indistinguishable s t →
    ∃ s' t' : State, Reaches n s s' ∧ Reaches n t t' ∧ Indistinguishable s' t'

/-- R56, R68: earlier responses, error responses among them, have no effect on what follows. -/
def Obligations.EarlierResponsesInert : Prop :=
  ∀ (n : Nat) (s t : State) (qs : List RspWord), Reaches n s t →
    Reaches n { s with responses := qs ++ s.responses } { t with responses := qs ++ t.responses }

/-- R10, R12: R is written by LOAD, by the keystream steps of STEP and XORL, by DROP and by reset; LOADED is set by
LOAD and cleared by DROP and reset; nothing else writes either. -/
def Obligations.OnlyTheseWriteTheBlock : Prop :=
  ∀ s t : State, step s = .next t →
    (t.r ≠ s.r →
      (∃ rest, s.incoming = .reset :: rest) ∨
      ∃ w rest i, s.incoming = .command w :: rest ∧ decode w = .ok i ∧
        ((∃ seed, i = .load seed) ∨ i = .step ∨ (∃ d nv, i = .xorl d nv ∧ 1 ≤ nv.toNat) ∨ i = .drop)) ∧
    (t.loaded ≠ s.loaded →
      (t.loaded = false ∧ ∃ rest, s.incoming = .reset :: rest) ∨
      ∃ w rest i, s.incoming = .command w :: rest ∧ decode w = .ok i ∧
        ((t.loaded = true ∧ ∃ seed, i = .load seed) ∨ (t.loaded = false ∧ i = .drop)))

/-! ## The commands -/

/-- R53: the word of NOP, its effect in every state, the words near it that are illegal, and that any number of NOPs
before a command changes neither its response nor the state after it. -/
def Obligations.NopChangesNothing : Prop :=
  encode .nop = 0x00000000 ∧
  (∀ w : CmdWord, w.extractLsb' 28 4 = 0#4 → w.extractLsb' 0 28 ≠ 0#28 → ∃ e, decode w = .error e) ∧
  (∀ s : State, exec .nop s = .next (answered 0x0000 s)) ∧
  ∀ (i : Instr) (s : State), i.wellFormed = true →
    ∃ (v : Reg) (l : Bool) (c : Nat) (q : RspWord),
      exec i s = .next (answered q { s with r := v, loaded := l, draws := c }) ∧
      ∀ n, Reaches (n + 1) (presentAll (List.replicate n .nop ++ [i]) s)
        { s with r := v, loaded := l, draws := c, responses := s.responses ++ List.replicate n 0x0000 ++ [q] }

/-- R40: the word of LOAD, its effect in every state and for every seed, its one error, and that a second LOAD of the
same seed changes nothing. -/
def Obligations.LoadWritesSeed : Prop :=
  (∀ seed : Reg, encode (.load seed) = 0x1#4 ++ 0#1 ++ seed) ∧
  (∀ w : CmdWord, w.extractLsb' 28 4 = 0x1#4 →
    (w.getLsbD 27 = true → ∃ e, decode w = .error e) ∧
    (w.getLsbD 27 = false → ∃ seed, decode w = .ok (.load seed) ∧ ∀ p < 27, regBit seed p = w.getLsbD (26 - p))) ∧
  (∀ (seed : Reg) (s : State),
    exec (.load seed) s = .next (answered 0x0000 { s with r := seed, loaded := true })) ∧
  (∀ (seed : Reg) (s t u : State), exec (.load seed) s = .next t → exec (.load seed) t = .next u →
    u.r = t.r ∧ u.loaded = t.loaded) ∧
  encode (.load 0x5555555) = 0x15555555

/-- R41: the word of STEP, its effect when a seed is loaded (the bit is the head before the shift), its two errors,
the first 27 STEPs after a LOAD, and the two examples. -/
def Obligations.StepEmitsHead : Prop :=
  encode .step = 0x20000000 ∧
  (∀ w : CmdWord, w.extractLsb' 28 4 = 0x2#4 → w.extractLsb' 0 28 ≠ 0#28 → ∃ e, decode w = .error e) ∧
  (∀ s : State, s.loaded = true →
    exec .step s = .next (answered (bitWord (regBit s.r 0)) { s with r := (lfsrStep s.r).2 })) ∧
  (∀ s : State, s.loaded = false → exec .step s = .next (answered 0x0200 s)) ∧
  (∀ (seed : Reg) (s : State), Reaches 28 (presentAll (generateProgram seed 27) s)
    { s with r := advance 27 seed, loaded := true,
             responses := s.responses ++ 0x0000 :: (List.range 27).map fun p => bitWord (regBit seed p) }) ∧
  ∀ s : State, s.loaded = true →
    exec .step { s with r := 0x5555555 } = .next (answered 0x0001 { s with r := 0x2AAAAAB }) ∧
    exec .step { s with r := 0x2AAAAAB } = .next (answered 0x0000 { s with r := 0x5555556 })

/-- R42: the word of DROP, its effect in every state (R is left holding some value), its one error, that STEP and
XORL with NV >= 1 are then answered NOT_LOADED, and that a DROP while LOADED is 0 changes nothing a host can see. -/
def Obligations.DropDiscardsRegister : Prop :=
  encode .drop = 0x50000000 ∧
  (∀ w : CmdWord, w.extractLsb' 28 4 = 0x5#4 → w.extractLsb' 0 28 ≠ 0#28 → ∃ e, decode w = .error e) ∧
  (∀ s : State, ∃ v : Reg,
    exec .drop s = .next (answered 0x0000 { s with r := v, loaded := false, draws := s.draws + 1 })) ∧
  (∀ s t : State, exec .drop s = .next t →
    exec .step t = .next (answered 0x0200 t) ∧
    ∀ (d : Byte) (nv : Cover), 1 ≤ nv.toNat → nv.toNat ≤ 8 → exec (.xorl d nv) t = .next (answered 0x0200 t)) ∧
  ∀ s t : State, s.loaded = false → exec .drop s = .next t → Indistinguishable t (answered 0x0000 s)

/-- R51: the word of XORL, its effect with every legal cover count, bit by bit, its two errors, NV = 0 in every state,
D = 0x00, that it moves R as NV STEPs do, and the example. -/
def Obligations.XorlCiphersByte : Prop :=
  (∀ (d : Byte) (nv : Cover), encode (.xorl d nv) = 0x3#4 ++ 0#8 ++ nv ++ 0#8 ++ d) ∧
  (∀ w : CmdWord, w.extractLsb' 28 4 = 0x3#4 →
    ((∃ e, decode w = .error e) ↔
      w.getLsbD 27 = true ∨ w.extractLsb' 20 7 ≠ 0#7 ∨ w.extractLsb' 8 8 ≠ 0#8 ∨ 8 < (w.extractLsb' 16 4).toNat)) ∧
  (∀ (d : Byte) (nv : Cover) (s : State), nv.toNat ≤ 8 → (nv.toNat = 0 ∨ s.loaded = true) →
    ∃ q : Byte,
      (∀ j < 8, byteBit q j =
        if j < nv.toNat then Bool.xor (byteBit d j) ((generate s.r nv.toNat).getD j false) else byteBit d j) ∧
      exec (.xorl d nv) s = .next (answered (q.setWidth 16) { s with r := advance nv.toNat s.r })) ∧
  (∀ (d : Byte) (nv : Cover) (s : State), 1 ≤ nv.toNat → nv.toNat ≤ 8 → s.loaded = false →
    exec (.xorl d nv) s = .next (answered 0x0200 s)) ∧
  (∀ (d : Byte) (s : State), exec (.xorl d 0) s = .next (answered (d.setWidth 16) s)) ∧
  (∀ (nv : Cover) (s : State), nv.toNat ≤ 8 → s.loaded = true →
    ∃ q : Byte, (∀ j < 8, byteBit q j = (decide (j < nv.toNat) && (generate s.r nv.toNat).getD j false)) ∧
      exec (.xorl 0x00 nv) s = .next (answered (q.setWidth 16) { s with r := advance nv.toNat s.r })) ∧
  (∀ (n : Nat) (s : State), s.loaded = true → Reaches n (presentAll (List.replicate n .step) s)
    { s with r := advance n s.r, responses := s.responses ++ (generate s.r n).map bitWord }) ∧
  encode (.xorl 0x48 8) = 0x30080048 ∧
  ∀ s : State, s.loaded = true →
    exec (.xorl 0x48 8) { s with r := 0x5555555 } = .next (answered 0x00E2 { s with r := 0x5555598 })

/-- R50: the word of XORK, its effect in every state with every legal cover count (no state of the block is read or
written), the masks, its one error, the ignored key bits, the corner cases and the examples. -/
def Obligations.XorkCiphersByte : Prop :=
  (∀ (d k : Byte) (nv : Cover), encode (.xork d k nv) = 0x4#4 ++ 0#8 ++ nv ++ k ++ d) ∧
  (∀ w : CmdWord, w.extractLsb' 28 4 = 0x4#4 →
    ((∃ e, decode w = .error e) ↔
      w.getLsbD 27 = true ∨ w.extractLsb' 20 7 ≠ 0#7 ∨ 8 < (w.extractLsb' 16 4).toNat)) ∧
  (∀ (d k : Byte) (nv : Cover) (s : State), nv.toNat ≤ 8 →
    exec (.xork d k nv) s = .next (answered ((d ^^^ (k &&& coverMask nv.toNat)).setWidth 16) s)) ∧
  (List.range 9).map coverMask = [0x00, 0x80, 0xC0, 0xE0, 0xF0, 0xF8, 0xFC, 0xFE, 0xFF] ∧
  (∀ (d k k' : Byte) (nv : Cover) (s : State), (∀ j < nv.toNat, byteBit k j = byteBit k' j) →
    exec (.xork d k nv) s = exec (.xork d k' nv) s) ∧
  (∀ (d k : Byte) (s : State), exec (.xork d k 0) s = .next (answered (d.setWidth 16) s)) ∧
  (∀ (d : Byte) (nv : Cover) (s : State), nv.toNat ≤ 8 →
    exec (.xork d 0x00 nv) s = .next (answered (d.setWidth 16) s)) ∧
  (∀ (k : Byte) (s : State), exec (.xork 0x00 k 8) s = .next (answered (k.setWidth 16) s)) ∧
  encode (.xork 0xB0 0x00 8) = 0x400800B0 ∧ encode (.xork 0xA5 0xFF 4) = 0x4004FFA5 ∧
  ∀ s : State, exec (.xork 0xB0 0x00 8) s = .next (answered 0x00B0 s) ∧
    exec (.xork 0xA5 0xFF 4) s = .next (answered 0x0055 s)

/-- R70: among legal commands NOT_LOADED is the answer to STEP and to XORL with NV >= 1 while LOADED is 0, and to
nothing else; the examples after reset. -/
def Obligations.NotLoadedExactly : Prop :=
  (∀ (i : Instr) (s : State), i.wellFormed = true →
    (exec i s = .next (answered 0x0200 s) ↔
      s.loaded = false ∧ (i = .step ∨ ∃ d nv, i = .xorl d nv ∧ 1 ≤ nv.toNat))) ∧
  step (State.reset.withFetchWord 32 0x20000000) = .next (answered 0x0200 State.reset) ∧
  step (State.reset.withFetchWord 32 0x30010012) = .next (answered 0x0200 State.reset) ∧
  step (State.reset.withFetchWord 32 0x30000012) = .next (answered 0x0012 State.reset)

/-- R68, R87: a command answered with an error status got 0x0100 or 0x0200, DATA 0, and wrote nothing of the
block. -/
def Obligations.ErrorsArePrecise : Prop :=
  ∀ (s t : State) (w : CmdWord) (rest : List HostEvent) (q : RspWord),
    s.incoming = .command w :: rest → step s = .next t → t.responses = s.responses ++ [q] → statusField q ≠ 0 →
      (q = 0x0100 ∨ q = 0x0200) ∧ dataField q = 0 ∧ t = answered q { s with incoming := rest }

/-- A cover count outside the encoding, which no word decodes to, is answered ILLEGAL_COMMAND by exec as well: the
model's choice (log entry 9), so that no term of Instr is without a meaning. -/
def Obligations.CoverOutsideEncoding : Prop :=
  ∀ (d k : Byte) (nv : Cover) (s : State), 9 ≤ nv.toNat →
    exec (.xorl d nv) s = .next (answered 0x0100 s) ∧ exec (.xork d k nv) s = .next (answered 0x0100 s)

/-- R23: presenting NOP, LOAD, XORK, DROP or XORL with NV = 0 a second time changes nothing more of the block that any
response could show; STEP and XORL with NV >= 1 move the register again each time. -/
def Obligations.RepeatedCommands : Prop :=
  (∀ (i : Instr) (s t u : State), i.wellFormed = true → bitsTaken i = 0 →
    exec i s = .next t → exec i t = .next u →
      u.loaded = t.loaded ∧ (t.loaded = true → u.r = t.r) ∧
      (u.responses.drop (s.responses.length + 1) = t.responses.drop s.responses.length)) ∧
  ∀ (i : Instr) (s t u : State), i.wellFormed = true → 1 ≤ bitsTaken i → s.loaded = true →
    exec i s = .next t → exec i t = .next u →
      t.r = advance (bitsTaken i) s.r ∧ u.r = advance (bitsTaken i) t.r

/-! ## The keystream generator -/

/-- R36: the emitted bit is the head, every bit moves one position toward the head, the tail takes the XOR of the four
tapped bits read before the shift, the order in which the taps are visited has no effect, and the worked example. -/
def Obligations.LfsrStepPositions : Prop :=
  (∀ r : Reg,
    (lfsrStep r).1 = regBit r 0 ∧
    (∀ i < 26, regBit (lfsrStep r).2 i = regBit r (i + 1)) ∧
    regBit (lfsrStep r).2 26 =
      Bool.xor (Bool.xor (Bool.xor (regBit r 0) (regBit r 19)) (regBit r 20)) (regBit r 26) ∧
    ∀ order : List Nat, order.Perm [0, 19, 20, 26] →
      order.foldl (fun f t => if regBit r t = true then Bool.xor f true else f) false = regBit (lfsrStep r).2 26) ∧
  lfsrStep 0x5555555 = (true, 0x2AAAAAB)

/-- R16(a): held as a number, the head its most significant bit, the register makes the same step. -/
def Obligations.NumberFormAgrees : Prop :=
  ∀ r : Reg,
    r.toNat = ((List.range 27).map fun p => (regBit r p).toNat * 2 ^ (26 - p)).sum ∧
    numStep r.toNat = ((lfsrStep r).1.toNat, (lfsrStep r).2.toNat)

/-- R16(b): held as a ring buffer the register makes the same step, from any pair (P, h), and two pairs that give the
same register emit the same bits for ever. -/
def Obligations.RingBufferRefines : Prop :=
  (∀ seed : Reg, ringReg (ringLoad seed) = seed) ∧
  (∀ q : Ring, (ringStep q).1 = (lfsrStep (ringReg q)).1 ∧ ringReg (ringStep q).2 = (lfsrStep (ringReg q)).2) ∧
  ∀ (q q' : Ring), ringReg q = ringReg q' → ∀ n,
    (ringStep ((fun p => (ringStep p).2)^[n] q)).1 = (ringStep ((fun p => (ringStep p).2)^[n] q')).1

/-- R37, R38: generate(seed, n) has length n and its bit t is what the t-th step emits, the steps made one after the
other from the seed; a length of 0 gives nothing; the worked example. -/
def Obligations.GenerateIteratesStep : Prop :=
  (∀ (seed : Reg) (n : Nat), (generate seed n).length = n ∧
    ∀ t < n, (generate seed n).getD t false = (lfsrStep ((fun r => (lfsrStep r).2)^[t] seed)).1) ∧
  (∀ seed : Reg, generate seed 0 = []) ∧
  generate 0x5555555 10 = [true, false, true, false, true, false, true, false, true, false]

/-- R43(a), (b): the register is a window on the keystream, so the first 27 bits are the seed, and the keystream obeys
the recurrence. -/
def Obligations.KeystreamWindow : Prop :=
  ∀ (seed : Reg) (t : Nat),
    (∀ i < 27, regBit (advance t seed) i = (generate seed (t + i + 1)).getD (t + i) false) ∧
    generate seed 27 = regBits seed ∧
    (generate seed (t + 28)).getD (t + 27) false =
      Bool.xor (Bool.xor (Bool.xor ((generate seed (t + 28)).getD t false)
        ((generate seed (t + 28)).getD (t + 19) false)) ((generate seed (t + 28)).getD (t + 20) false))
        ((generate seed (t + 28)).getD (t + 26) false)

/-- R43(c): the step can be undone by the formula given, so it is a bijection on register values. -/
def Obligations.LfsrStepInvertible : Prop :=
  Function.Bijective (fun r : Reg => (lfsrStep r).2) ∧
  ∀ r r' : Reg, (lfsrStep r).2 = r' →
    (∀ i, 1 ≤ i → i ≤ 26 → regBit r i = regBit r' (i - 1)) ∧
    regBit r 0 = Bool.xor (Bool.xor (Bool.xor (regBit r' 26) (regBit r' 18)) (regBit r' 19)) (regBit r' 25)

/-- R43(d), (e): the zero register is a fixed point that no other register reaches, its keystream is zeros, and
generate is linear in the seed. -/
def Obligations.ZeroFixedAndLinear : Prop :=
  lfsrStep 0 = (false, 0) ∧
  (∀ n, generate 0 n = List.replicate n false) ∧
  (∀ (r : Reg) (n : Nat), r ≠ 0 → advance n r ≠ 0) ∧
  ∀ (a b : Reg) (n : Nat), generate (a ^^^ b) n = List.zipWith Bool.xor (generate a n) (generate b n)

/-- R44: every non-zero register value first returns after exactly 2^27 - 1 keystream steps, and all of them lie on
one cycle. -/
def Obligations.MaximalPeriod : Prop :=
  (∀ r : Reg, r ≠ 0 → advance (2 ^ 27 - 1) r = r ∧ ∀ n, 0 < n → n < 2 ^ 27 - 1 → advance n r ≠ r) ∧
  ∀ a b : Reg, a ≠ 0 → b ≠ 0 → ∃ n, advance n a = b

/-- R59: a shorter keystream is the beginning of a longer one from the same seed. -/
def Obligations.PrefixStability : Prop :=
  ∀ (seed : Reg) (n m : Nat), n ≤ m →
    (generate seed m).take n = generate seed n ∧ generate seed n <+: generate seed m

/-- R57: the keystream has the length asked for and the result buffer that of the data; a STEP with status OK yields
one keystream bit, an XORL or XORK with status OK one result byte, and no command more than one response. -/
def Obligations.LengthExactness : Prop :=
  (∀ (seed : Reg) (n : Nat), (generate seed n).length = n) ∧
  (∀ (data : List Byte) (ks : Bits), (transform data ks).length = data.length) ∧
  (∀ (i : Instr) (s t : State), exec i s = .next t → t.responses.length = s.responses.length + 1) ∧
  (∀ (s t : State) (q : RspWord), exec .step s = .next t → t.responses = s.responses ++ [q] → statusField q = 0 →
    ∃ k : Bool, [k] = generate s.r 1 ∧ q = bitWord k) ∧
  ∀ (d k : Byte) (nv : Cover) (s t : State) (q : RspWord),
    (exec (.xorl d nv) s = .next t ∨ exec (.xork d k nv) s = .next t) → t.responses = s.responses ++ [q] →
    statusField q = 0 → ∃ b : Byte, q = b.setWidth 16

/-! ## The XOR cipher -/

/-- R46: bit g of the result is bit g of the data, XORed with keystream bit g where there is one; the result is as
long as the data; the worked example. -/
def Obligations.TransformBits : Prop :=
  (∀ (data : List Byte) (ks : Bits), (transform data ks).length = data.length ∧
    ∀ g < 8 * data.length, (bitsOf (transform data ks)).getD g false =
      if g < ks.length then Bool.xor ((bitsOf data).getD g false) (ks.getD g false)
      else (bitsOf data).getD g false) ∧
  transform [0xB0] (List.replicate 8 false) = [0xB0]

/-- R47: with a keystream of L bits, a byte beyond it is copied whole, and the byte it ends inside has its leading
L mod 8 bits XORed and the others copied. -/
def Obligations.ShortKeystreamPassesThrough : Prop :=
  ∀ (data : List Byte) (ks : Bits) (i : Nat), i < data.length →
    (ks.length ≤ 8 * i → (transform data ks)[i]? = data[i]?) ∧
    (8 * i ≤ ks.length → ks.length < 8 * i + 8 → ∀ j < 8,
      byteBit ((transform data ks).getD i 0) j =
        if j < ks.length % 8 then Bool.xor (byteBit (data.getD i 0) j) (ks.getD (8 * i + j) false)
        else byteBit (data.getD i 0) j)

/-- R52: a longer keystream's surplus is never read; transform undoes itself, for any keystream; the empty and the
zero cases; each result byte depends on its own data byte and its own eight keystream bits. -/
def Obligations.TransformProperties : Prop :=
  (∀ (data : List Byte) (ks : Bits), transform data ks = transform data (ks.take (8 * data.length))) ∧
  (∀ (data : List Byte) (ks : Bits), transform (transform data ks) ks = data) ∧
  (∀ ks : Bits, transform [] ks = []) ∧ (∀ data : List Byte, transform data [] = data) ∧
  (∀ (data : List Byte) (z : Bits), (∀ b ∈ z, b = false) → transform data z = data) ∧
  ∀ (data data' : List Byte) (ks ks' : Bits) (i : Nat), data[i]? = data'[i]? →
    (∀ j < 8, ks[8 * i + j]? = ks'[8 * i + j]?) → (transform data ks)[i]? = (transform data' ks')[i]?

/-- R48: the cover count is 8 for a byte the keystream covers, L mod 8 for the byte it ends inside, 0 after, and 8 for
every byte when the keystream is long enough. -/
def Obligations.CoverCountValues : Prop :=
  (∀ i L : Nat,
    (8 * i + 8 ≤ L → coverCount i L = 8) ∧
    (8 * i ≤ L → L < 8 * i + 8 → coverCount i L = L % 8) ∧
    (L ≤ 8 * i → coverCount i L = 0) ∧ coverCount i L ≤ 8) ∧
  ∀ (data : List Byte) (L i : Nat), 8 * data.length ≤ L → i < data.length → coverCount i L = 8

/-- R49: xor_byte is bit by bit as given, is one XOR with the key bits in the leading positions, and is what transform
does to each byte. -/
def Obligations.XorByteForms : Prop :=
  (∀ (d : Byte) (kb : Bits) (nv : Nat), nv ≤ 8 →
    (∀ j < 8, byteBit (xorByte d kb nv) j =
      if j < nv then Bool.xor (byteBit d j) (kb.getD j false) else byteBit d j) ∧
    xorByte d kb nv = d ^^^ byteOf fun j => if j < nv then kb.getD j false else false) ∧
  ∀ (data : List Byte) (ks : Bits) (i : Nat) (b : Byte), data[i]? = some b →
    (transform data ks)[i]? =
      some (xorByte b ((ks.drop (8 * i)).take (coverCount i ks.length)) (coverCount i ks.length))

/-- R66: a buffer may be fed in pieces, each piece with the keystream from where the last one stopped. -/
def Obligations.ByteAtATime : Prop :=
  ∀ (a b : List Byte) (ks : Bits),
    transform (a ++ b) ks = transform a ks ++ transform b (ks.drop (8 * a.length))

/-- R65: the empty cases of the functions, and the one-command forms of empty, which return D in every state. -/
def Obligations.ZeroLengthIdentity : Prop :=
  (∀ ks : Bits, transform [] ks = []) ∧ (∀ seed : Reg, generate seed 0 = []) ∧
  ∀ (d k : Byte) (s : State), exec (.xorl d 0) s = .next (answered (d.setWidth 16) s) ∧
    exec (.xork d k 0) s = .next (answered (d.setWidth 16) s)

/-! ## The block level equals the function level -/

/-- R60: LOAD and n STEPs return generate(seed, n), from any state, and leave the register n steps on. -/
def Obligations.GenerateAsCommands : Prop :=
  ∀ (s : State) (seed : Reg) (n : Nat),
    Reaches (n + 1) (presentAll (generateProgram seed n) s)
      { s with r := (fun r => (lfsrStep r).2)^[n] seed, loaded := true,
               responses := s.responses ++ 0x0000 :: (generate seed n).map bitWord }

/-- R61: one XORK per byte, with any key bytes that agree with the keystream where it covers them, returns
transform(data, ks) and changes no state of the block. -/
def Obligations.TransformAsXorkCommands : Prop :=
  ∀ (s : State) (data keys : List Byte) (ks : Bits), keys.length = data.length →
    (∀ i < data.length, ∀ j < coverCount i ks.length, byteBit (keys.getD i 0) j = ks.getD (8 * i + j) false) →
    Reaches data.length (presentAll (xorkCommands data keys ks.length) s)
      { s with responses := s.responses ++ dataWords (transform data ks) }

/-- R62: LOAD and one XORL per byte, with the cover counts of a keystream of L bits, return transform of the data
with that keystream, and leave the register min(L, 8m) steps on; with L = 8m this is the cipher. -/
def Obligations.TransformAsXorlCommands : Prop :=
  ∀ (s : State) (seed : Reg) (data : List Byte) (L : Nat),
    Reaches (data.length + 1) (presentAll (transformProgram seed data L) s)
      { s with r := advance (min L (8 * data.length)) seed, loaded := true,
               responses := s.responses ++
                 0x0000 :: dataWords (transform data (generate seed (min L (8 * data.length)))) } ∧
    transform data (generate seed (min L (8 * data.length))) = transform data (generate seed L) ∧
    (L = 8 * data.length → transform data (generate seed L) = cipher seed data)

/-- R55: the composed cipher as LOAD and full XORLs, and what the optional DROP adds. -/
def Obligations.CipherAsCommands : Prop :=
  ∀ (s : State) (seed : Reg) (data : List Byte),
    Reaches (data.length + 1) (presentAll (cipherProgram seed data) s)
      { s with r := advance (8 * data.length) seed, loaded := true,
               responses := s.responses ++ 0x0000 :: dataWords (cipher seed data) } ∧
    ∃ v : Reg, Reaches (data.length + 2) (presentAll (cipherProgram seed data ++ [.drop]) s)
      { s with r := v, loaded := false, draws := s.draws + 1,
               responses := s.responses ++ 0x0000 :: dataWords (cipher seed data) ++ [0x0000] }

/-- R63: after `a` keystream steps from a seed, STEP returns bit a of its keystream, XORL uses the bits from a on, and
any commands but LOAD and DROP leave the register as many steps further as keystream bits they took. -/
def Obligations.KeystreamContinues : Prop :=
  ∀ (seed : Reg) (a : Nat) (s : State), s.loaded = true → s.r = advance a seed →
    exec .step s = .next (answered (bitWord ((generate seed (a + 1)).getD a false))
      { s with r := advance (a + 1) seed }) ∧
    (∀ (d : Byte) (nv : Cover), nv.toNat ≤ 8 →
      exec (.xorl d nv) s = .next (answered
        ((xorByte d ((generate seed (a + nv.toNat)).drop a) nv.toNat).setWidth 16)
        { s with r := advance (a + nv.toNat) seed })) ∧
    ∀ cmds : List Instr, (∀ i ∈ cmds, i.wellFormed = true ∧ continues i = true) →
      ∃ qs : List RspWord, qs.length = cmds.length ∧ (∀ q ∈ qs, statusField q = 0) ∧
        Reaches cmds.length (presentAll cmds s)
          { s with r := advance (a + (cmds.map bitsTaken).sum) seed, responses := s.responses ++ qs }

/-- R64, R86: enciphering twice with the same seed gives the data back, for the functions, for the block run twice
with a LOAD of its own each time, and for XORK with the same key byte twice. -/
def Obligations.Involution : Prop :=
  (∀ (seed : Reg) (data : List Byte), cipher seed (cipher seed data) = data) ∧
  (∀ (seed : Reg) (data : List Byte), ∃ c : List Byte, c.length = data.length ∧
    (∀ s : State, ∃ t : State, Reaches (data.length + 1) (presentAll (cipherProgram seed data) s) t ∧
      t.responses = s.responses ++ 0x0000 :: dataWords c) ∧
    ∀ s : State, ∃ t : State, Reaches (c.length + 1) (presentAll (cipherProgram seed c) s) t ∧
      t.responses = s.responses ++ 0x0000 :: dataWords data) ∧
  ∀ (d k : Byte) (nv : Cover), nv.toNat ≤ 8 → ∃ c : Byte, ∀ s : State,
    exec (.xork d k nv) s = .next (answered (c.setWidth 16) s) ∧
    exec (.xork c k nv) s = .next (answered (d.setWidth 16) s)

/-- R84: a second buffer sent without a LOAD of its own meets the keystream from where the first one stopped, with
status OK. -/
def Obligations.SecondMessageContinues : Prop :=
  ∀ (s : State) (seed : Reg) (first second : List Byte),
    Reaches (first.length + second.length + 1) (presentAll (cipherProgram seed first ++ second.map xorlFull) s)
      { s with r := advance (8 * (first.length + second.length)) seed, loaded := true,
               responses := s.responses ++ 0x0000 :: dataWords (cipher seed first) ++
                 dataWords (transform second ((generate seed (8 * (first.length + second.length))).drop
                   (8 * first.length))) }

/-- R77: in a system of several instances, each instance ends where its own steps alone take it, whatever is done to
the others in between. -/
def Obligations.InstancesIndependent : Prop :=
  ∀ (schedule : List Nat) (sys : System) (i : Nat) (s : State), sys[i]? = some s →
    ∃ t : State, Reaches (schedule.count i) s t ∧ (runSchedule schedule sys)[i]? = some t

/-- R20, R83: the host takes a seed from a text exactly when it has 27 characters, each 0 or 1, and then the character
at index p is the seed bit p. -/
def Obligations.SeedTextChecked : Prop :=
  ∀ text : List Char,
    (∀ seed : Reg, seedOfText text = .ok seed ↔
      text.length = 27 ∧ ∀ p < 27, text[p]? = some (if regBit seed p then '1' else '0')) ∧
    ((∃ e, seedOfText text = .error e) ↔ text.length ≠ 27 ∨ ∃ c ∈ text, c ≠ '0' ∧ c ≠ '1')
end

