-- ==== Sys2Proof/Laws/Operands.lean ====
section
/-!
SUPPORT. Sys2Proof/Laws/Operands.lean: reading a bit of what was assembled from bits, and that a register or a byte
is determined by its bits.
-/
namespace Sys2Proof.Machine

@[simp] theorem regBit_regOf (f : Nat → Bool) (p : Nat) : regBit (regOf f) p = (decide (p < 27) && f p) := by
  unfold regBit regOf
  rw [BitVec.getMsbD_ofFnBE]
  by_cases h : p < 27 <;> simp [h]

@[simp] theorem byteBit_byteOf (f : Nat → Bool) (j : Nat) : byteBit (byteOf f) j = (decide (j < 8) && f j) := by
  unfold byteBit byteOf
  rw [BitVec.getMsbD_ofFnBE]
  by_cases h : j < 8 <;> simp [h]

/-- Two register values with the same 27 positions are equal (R10). -/
theorem reg_ext {a b : Reg} (h : ∀ p < 27, regBit a p = regBit b p) : a = b := by
  apply BitVec.eq_of_getMsbD_eq
  intro i hi
  exact h i hi

/-- Two bytes with the same eight bits are equal (R18). -/
theorem byte_ext {a b : Byte} (h : ∀ j < 8, byteBit a j = byteBit b j) : a = b := by
  apply BitVec.eq_of_getMsbD_eq
  intro i hi
  exact h i hi

/-- There is no position beyond the tail. -/
theorem regBit_of_ge (r : Reg) {p : Nat} (h : 27 ≤ p) : regBit r p = false := by
  unfold regBit; simp [BitVec.getMsbD, Nat.not_lt.mpr h]

@[simp] theorem length_byteBits (b : Byte) : (byteBits b).length = 8 := by simp [byteBits]

@[simp] theorem length_regBits (r : Reg) : (regBits r).length = 27 := by simp [regBits]

@[simp] theorem length_bitsOf (data : List Byte) : (bitsOf data).length = 8 * data.length := by
  induction data with
  | nil => rfl
  | cons b rest ih =>
    have h : bitsOf (b :: rest) = byteBits b ++ bitsOf rest := rfl
    rw [h, List.length_append, ih, length_byteBits, List.length_cons]; omega

theorem getD_byteBits (b : Byte) {j : Nat} (h : j < 8) : (byteBits b).getD j false = byteBit b j := by
  simp [byteBits, h]

end Sys2Proof.Machine
end

