-- ==== Sys2Proof/Laws/State.lean ====
section
/-!
SUPPORT. Sys2Proof/Laws/State.lean: what each state update writes and what it leaves, one lemma per field, so that no
proof unfolds a record update.
-/
namespace Sys2Proof.Machine

@[simp] theorem respond_r (st d s) : (respond st d s).r = s.r := rfl
@[simp] theorem respond_loaded (st d s) : (respond st d s).loaded = s.loaded := rfl
@[simp] theorem respond_draws (st d s) : (respond st d s).draws = s.draws := rfl
@[simp] theorem respond_incoming (st d s) : (respond st d s).incoming = s.incoming := rfl
@[simp] theorem respond_responses (st d s) : (respond st d s).responses = s.responses ++ [responseWord st d] := rfl

@[simp] theorem writeReg_r (v s) : (writeReg v s).r = v := rfl
@[simp] theorem writeReg_loaded (v s) : (writeReg v s).loaded = s.loaded := rfl
@[simp] theorem writeReg_draws (v s) : (writeReg v s).draws = s.draws := rfl
@[simp] theorem writeReg_incoming (v s) : (writeReg v s).incoming = s.incoming := rfl
@[simp] theorem writeReg_responses (v s) : (writeReg v s).responses = s.responses := rfl

@[simp] theorem setLoaded_r (s) : (setLoaded s).r = s.r := rfl
@[simp] theorem setLoaded_loaded (s) : (setLoaded s).loaded = true := rfl
@[simp] theorem setLoaded_draws (s) : (setLoaded s).draws = s.draws := rfl
@[simp] theorem setLoaded_incoming (s) : (setLoaded s).incoming = s.incoming := rfl
@[simp] theorem setLoaded_responses (s) : (setLoaded s).responses = s.responses := rfl

@[simp] theorem discardReg_r (s) : (discardReg s).r = Config.unspecifiedReg s.draws s.r := rfl
@[simp] theorem discardReg_loaded (s) : (discardReg s).loaded = false := rfl
@[simp] theorem discardReg_draws (s) : (discardReg s).draws = s.draws + 1 := rfl
@[simp] theorem discardReg_incoming (s) : (discardReg s).incoming = s.incoming := rfl
@[simp] theorem discardReg_responses (s) : (discardReg s).responses = s.responses := rfl

@[simp] theorem acceptReset_r (s) : (acceptReset s).r = Config.unspecifiedReg s.draws s.r := rfl
@[simp] theorem acceptReset_loaded (s) : (acceptReset s).loaded = false := rfl
@[simp] theorem acceptReset_draws (s) : (acceptReset s).draws = s.draws + 1 := rfl
@[simp] theorem acceptReset_incoming (s) : (acceptReset s).incoming = s.incoming := rfl
@[simp] theorem acceptReset_responses (s) : (acceptReset s).responses = s.responses := rfl

@[simp] theorem present_r (w s) : (present w s).r = s.r := rfl
@[simp] theorem present_loaded (w s) : (present w s).loaded = s.loaded := rfl
@[simp] theorem present_draws (w s) : (present w s).draws = s.draws := rfl
@[simp] theorem present_incoming (w s) : (present w s).incoming = .command w :: s.incoming := rfl
@[simp] theorem present_responses (w s) : (present w s).responses = s.responses := rfl

/-- Two states with equal fields are equal. -/
theorem state_ext {s t : State} (hr : s.r = t.r) (hl : s.loaded = t.loaded) (hd : s.draws = t.draws)
    (hi : s.incoming = t.incoming) (hq : s.responses = t.responses) : s = t := by
  cases s; cases t; simp_all

end Sys2Proof.Machine
end

