-- ==== Sys2Proof/Laws/Ops.lean ====
section
/-!
SUPPORT. Sys2Proof/Laws/Ops.lean: what each shared operation can do, said once, and the fields of a response word.
-/
namespace Sys2Proof.Machine

/-- Raising an error always answers a next state: the same state with the error's response (R68). -/
theorem raiseError_eq (e : BlockError) (s : State) :
    raiseError e s = .next (respond (errorStatus e) 0 s) := rfl

/-- A command performed always answers a next state. -/
theorem finish_eq (d : Byte) (s : State) : finish d s = .next (respond .ok d s) := rfl

/-- The NOT_LOADED check lets a command pass that takes no keystream bit, or that finds `LOADED` set. -/
theorem requireLoaded_pass {bits : Nat} {s : State} (go : State → Result) (h : bits = 0 ∨ s.loaded = true) :
    requireLoaded bits s go = go s := by
  unfold requireLoaded
  rcases h with h | h <;> simp [h]

/-- The NOT_LOADED check stops a command that takes a keystream bit while `LOADED` is 0 (R70). -/
theorem requireLoaded_raise {bits : Nat} {s : State} (go : State → Result) (hb : 1 ≤ bits) (hl : s.loaded = false) :
    requireLoaded bits s go = raiseError .notLoaded s := by
  simp [requireLoaded, hb, hl]

/-- Everything the NOT_LOADED check can do. -/
theorem requireLoaded_cases (bits : Nat) (s : State) (go : State → Result) :
    (requireLoaded bits s go = go s ∧ (bits = 0 ∨ s.loaded = true)) ∨
      (requireLoaded bits s go = raiseError .notLoaded s ∧ 1 ≤ bits ∧ s.loaded = false) := by
  by_cases h : 1 ≤ bits ∧ s.loaded = false
  · exact .inr ⟨requireLoaded_raise go h.1 h.2, h⟩
  · have h' : bits = 0 ∨ s.loaded = true := by
      cases hl : s.loaded
      · left; simp [hl] at h; omega
      · exact .inr rfl
    exact .inl ⟨requireLoaded_pass go h', h'⟩

/-- A legal cover count passes its check. -/
theorem requireCover_pass {nv : Cover} {s : State} (go : State → Result) (h : coverLegal nv = true) :
    requireCover nv s go = go s := by
  simp [requireCover, h]

/-- Everything the cover count check can do. -/
theorem requireCover_cases (nv : Cover) (s : State) (go : State → Result) :
    (requireCover nv s go = go s ∧ coverLegal nv = true) ∨
      (requireCover nv s go = raiseError .illegalCommand s ∧ coverLegal nv = false) := by
  cases h : coverLegal nv <;> simp [requireCover, h]

/-- A bit of a response word: DATA, STATUS, zeros (R30). -/
theorem getLsbD_responseWord (st : Status) (d : Byte) (b : Nat) :
    (responseWord st d).getLsbD b =
      if b < 8 then d.getLsbD b else if b < 12 then (statusCode st).getLsbD (b - 8) else false := by
  unfold responseWord
  rw [BitVec.getLsbD_append]
  by_cases h : b < 8
  · rw [if_pos h, if_pos h]
  · rw [if_neg h, if_neg h, BitVec.getLsbD_append]
    by_cases h2 : b < 12
    · rw [if_pos h2, if_pos (by omega)]
    · rw [if_neg h2, if_neg (by omega)]
      exact BitVec.getLsbD_zero

@[simp] theorem statusField_responseWord (st : Status) (d : Byte) :
    statusField (responseWord st d) = statusCode st := by
  unfold statusField
  apply BitVec.eq_of_getLsbD_eq
  intro i hi
  have h1 : ¬ 8 + i < 8 := by omega
  have h2 : 8 + i < 12 := by omega
  rw [BitVec.getLsbD_extractLsb', getLsbD_responseWord, if_neg h1, if_pos h2, Nat.add_sub_cancel_left]
  simp [hi]

@[simp] theorem dataField_responseWord (st : Status) (d : Byte) : dataField (responseWord st d) = d := by
  unfold dataField
  apply BitVec.eq_of_getLsbD_eq
  intro i hi
  have h1 : 0 + i < 8 := by omega
  rw [BitVec.getLsbD_extractLsb', getLsbD_responseWord, if_pos h1, Nat.zero_add]
  simp [hi]

/-- The value of a response word as a number: the status code above the data byte (R30). -/
theorem responseWord_toNat (st : Status) (d : Byte) :
    (responseWord st d).toNat = 256 * (statusCode st).toNat + d.toNat := by
  have h : (0#4 ++ statusCode st).toNat = (statusCode st).toNat := by cases st <;> rfl
  unfold responseWord
  rw [BitVec.toNat_append, ← Nat.shiftLeft_add_eq_or_of_lt d.isLt, Nat.shiftLeft_eq, h]
  omega

/-- What taking the host's next event can give (R24, R78). -/
theorem fetch_nil {s : State} (h : s.incoming = []) : fetch s = .idle := by simp [fetch, h]

theorem fetch_reset {s : State} {rest : List HostEvent} (h : s.incoming = .reset :: rest) :
    fetch s = .reset { s with incoming := rest } := by simp [fetch, h]

theorem fetch_command {s : State} {w : CmdWord} {rest : List HostEvent} (h : s.incoming = .command w :: rest) :
    fetch s = classify w { s with incoming := rest } := by simp [fetch, h]

end Sys2Proof.Machine
end

