-- ==== Sys2Proof/Laws/Generator.lean ====
section
/-!
SUPPORT. Sys2Proof/Laws/Generator.lean: the bits of a shifted register, the feedback bit as a XOR, and how the
keystream of a number of steps is cut into two.
-/
namespace Sys2Proof.Machine

/-- The positions of a shifted register: each bit one nearer the head, the new bit at the tail. -/
theorem regBit_shiftIn (r : Reg) (b : Bool) {p : Nat} (h : p < 27) :
    regBit (shiftIn r b) p = if p = 26 then b else regBit r (p + 1) := by
  have key : (r.shiftConcat b).getLsbD (26 - p)
      = if 26 - p = 0 then b else r.getLsbD (26 - p - 1) := by
    rw [BitVec.getLsbD_shiftConcat]
    have : 26 - p < 27 := by omega
    by_cases h0 : 26 - p = 0 <;> simp [h0, this]
  by_cases hp : p = 26
  · subst hp
    simp [regBit, shiftIn, BitVec.getMsbD]
  · have h1 : p + 1 < 27 := by omega
    have h2 : 26 - p - 1 = 26 - (p + 1) := by omega
    have h3 : ¬ 26 - p = 0 := by omega
    simp only [h3, if_false] at key
    simp [regBit, shiftIn, BitVec.getMsbD, h, h1, hp, key, h2]

/-- The feedback bit is the XOR of the four tapped bits (R36). -/
theorem feedback_eq (r : Reg) :
    feedback r = Bool.xor (Bool.xor (Bool.xor (regBit r 0) (regBit r 19)) (regBit r 20)) (regBit r 26) := by
  simp only [feedback, taps, List.foldl]
  cases regBit r 0 <;> cases regBit r 19 <;> cases regBit r 20 <;> cases regBit r 26 <;> rfl

@[simp] theorem keystream_zero (r : Reg) : keystream 0 r = ([], r) := rfl

theorem keystream_succ (n : Nat) (r : Reg) :
    keystream (n + 1) r = ((lfsrStep r).1 :: (keystream n (lfsrStep r).2).1, (keystream n (lfsrStep r).2).2) := rfl

@[simp] theorem length_keystream (n : Nat) (r : Reg) : (keystream n r).1.length = n := by
  induction n generalizing r with
  | zero => rfl
  | succ n ih => rw [keystream_succ]; simp [ih]

/-- `m + n` keystream steps are `m` steps and then `n` more from the register they leave (R63). -/
theorem keystream_add (m n : Nat) (r : Reg) :
    keystream (m + n) r =
      ((keystream m r).1 ++ (keystream n (keystream m r).2).1, (keystream n (keystream m r).2).2) := by
  induction m generalizing r with
  | zero => simp
  | succ m ih => rw [Nat.succ_add, keystream_succ, ih, keystream_succ]; simp

/-- The register after `m + n` steps. -/
theorem advance_add (m n : Nat) (r : Reg) : advance (m + n) r = advance n (advance m r) := by
  simp [advance, keystream_add]

theorem advance_one (r : Reg) : advance 1 r = (lfsrStep r).2 := rfl

/-- LOAD completes in every state (R40). -/
theorem execLoad_eq (seed : Reg) (s : State) : execLoad seed s = .next (respond .ok 0 (setLoaded (writeReg seed s))) :=
  rfl

/-- Everything STEP can do (R41, R70). -/
theorem execStep_cases (s : State) :
    (s.loaded = true ∧
      execStep s = .next (respond .ok (bitData (lfsrStep s.r).1) (writeReg (lfsrStep s.r).2 s))) ∨
    (s.loaded = false ∧ execStep s = .next (respond .notLoaded 0 s)) := by
  unfold execStep
  rcases requireLoaded_cases 1 s
      (fun s => finish (bitData (lfsrStep s.r).1) (writeReg (lfsrStep s.r).2 s)) with ⟨h, h'⟩ | ⟨h, -, h'⟩
  · exact .inl ⟨h'.resolve_left (by omega), by rw [h, finish_eq]⟩
  · exact .inr ⟨h', by rw [h]; rfl⟩

/-- DROP completes in every state (R42). -/
theorem execDrop_eq (s : State) : execDrop s = .next (respond .ok 0 (discardReg s)) := rfl

end Sys2Proof.Machine
end

