-- ==== Sys2Proof/Laws/Cipher.lean ====
section
/-!
SUPPORT. Sys2Proof/Laws/Cipher.lean: the bits of a transformed byte, the shape of a transformed buffer, and all that
XORL and XORK can do.
-/
namespace Sys2Proof.Machine

/-- A bit of `xor_byte` (R49). -/
theorem byteBit_xorByte (d : Byte) (kb : Bits) (nv : Nat) {j : Nat} (h : j < 8) :
    byteBit (xorByte d kb nv) j = xorCell (byteBit d j) (kb.getD j false) (decide (j < nv)) := by
  simp [xorByte, h]

/-- A bit of a byte of `transform` (R46). -/
theorem byteBit_transformByte (ks : Bits) (i : Nat) (b : Byte) {j : Nat} (h : j < 8) :
    byteBit (transformByte ks i b) j =
      xorCell (byteBit b j) (ks.getD (keyIndex i j) false) (decide (keyIndex i j < ks.length)) := by
  simp [transformByte, h]

/-- The result buffer is as long as the data buffer (R57). -/
@[simp] theorem length_transform (data : List Byte) (ks : Bits) : (transform data ks).length = data.length := by
  simp [transform]

/-- Byte i of `transform` (R52(d)). -/
theorem getElem?_transform (data : List Byte) (ks : Bits) (i : Nat) :
    (transform data ks)[i]? = data[i]?.map (transformByte ks i) := by
  simp only [transform, List.getElem?_map, List.getElem?_zipIdx]
  cases data[i]? <;> simp

/-- Everything XORL can do with a legal cover count (R51, R70). -/
theorem execXorl_cases (d : Byte) (nv : Cover) (s : State) (h : coverLegal nv = true) :
    ((nv.toNat = 0 ∨ s.loaded = true) ∧
      execXorl d nv s = .next (respond .ok (xorByte d (keystream nv.toNat s.r).1 nv.toNat)
        (writeReg (keystream nv.toNat s.r).2 s))) ∨
    (1 ≤ nv.toNat ∧ s.loaded = false ∧ execXorl d nv s = .next (respond .notLoaded 0 s)) := by
  unfold execXorl
  rw [requireCover_pass _ h]
  rcases requireLoaded_cases nv.toNat s (fun s =>
      finish (xorByte d (keystream nv.toNat s.r).1 nv.toNat) (writeReg (keystream nv.toNat s.r).2 s)) with
    ⟨e, h'⟩ | ⟨e, h1, h2⟩
  · exact .inl ⟨h', by rw [e, finish_eq]⟩
  · exact .inr ⟨h1, h2, by rw [e]; rfl⟩

/-- XORK with a legal cover count completes in every state (R50). -/
theorem execXork_eq (d k : Byte) (nv : Cover) (s : State) (h : coverLegal nv = true) :
    execXork d k nv s = .next (respond .ok (xorByte d ((byteBits k).take nv.toNat) nv.toNat) s) := by
  unfold execXork
  rw [requireCover_pass _ h, finish_eq]

/-- A cover count outside the encoding is answered ILLEGAL_COMMAND (R69). -/
theorem exec_cover_illegal (d k : Byte) (nv : Cover) (s : State) (h : coverLegal nv = false) :
    execXorl d nv s = .next (respond .illegalCommand 0 s) ∧
      execXork d k nv s = .next (respond .illegalCommand 0 s) := by
  simp [execXorl, execXork, requireCover, h, raiseError, errorStatus]

end Sys2Proof.Machine
end

