-- ==== Sys2Proof/Laws/Encoding.lean ====
section
/-!
SUPPORT. Sys2Proof/Laws/Encoding.lean: the fields of an encoded command, and of an operand field.
-/
namespace Sys2Proof

/-- A bit of an encoded command: operand field, reserved bit 27, opcode (R28). -/
theorem getLsbD_encode (i : Instr) (b : Nat) :
    (encode i).getLsbD b =
      if b < 27 then (operandField i).getLsbD b
      else if b = 27 then false else (opcode i).getLsbD (b - 28) := by
  unfold encode
  rw [BitVec.getLsbD_append]
  split
  · rfl
  · rw [BitVec.getLsbD_append]
    by_cases h : b = 27
    · subst h; simp
    · have h1 : ¬ b - 27 < 1 := by omega
      have h2 : b - 27 - 1 = b - 28 := by omega
      simp [h, h1, h2]

@[simp] theorem bit27_encode (i : Instr) : (encode i).getLsbD 27 = false := by
  rw [getLsbD_encode]; rfl

@[simp] theorem fieldOp_encode (i : Instr) : fieldOp (encode i) = opcode i := by
  apply BitVec.eq_of_getLsbD_eq
  intro b hb
  have h1 : ¬ 28 + b < 27 := by omega
  have h2 : ¬ 28 + b = 27 := by omega
  simp [fieldOp, getLsbD_encode, hb, h1, h2]

@[simp] theorem fieldSeed_encode (i : Instr) : fieldSeed (encode i) = operandField i := by
  apply BitVec.eq_of_getLsbD_eq
  intro b hb
  simp [fieldSeed, getLsbD_encode, hb]

/-- A field that lies inside the operand field is read from it. -/
theorem extract_encode (i : Instr) (at_ len : Nat) (h : at_ + len ≤ 27) :
    (encode i).extractLsb' at_ len = (operandField i).extractLsb' at_ len := by
  apply BitVec.eq_of_getLsbD_eq
  intro b hb
  have h1 : at_ + b < 27 := by omega
  simp [getLsbD_encode, h1]

/-- The operand field of formats B and K, bit by bit (R28). -/
theorem getLsbD_operand (hi : BitVec 7) (nv : Cover) (k d : Byte) (b : Nat) :
    (hi ++ nv ++ k ++ d).getLsbD b =
      if b < 8 then d.getLsbD b else if b < 16 then k.getLsbD (b - 8)
      else if b < 20 then nv.getLsbD (b - 16) else hi.getLsbD (b - 20) := by
  rw [BitVec.getLsbD_append]
  by_cases h1 : b < 8
  · simp [h1]
  · rw [if_neg h1, if_neg h1, BitVec.getLsbD_append]
    by_cases h2 : b < 16
    · rw [if_pos h2, if_pos (by omega)]
    · rw [if_neg h2, if_neg (by omega), BitVec.getLsbD_append]
      have e1 : b - 8 - 8 = b - 16 := by omega
      have e2 : b - 16 - 4 = b - 20 := by omega
      by_cases h3 : b < 20
      · rw [if_pos h3, if_pos (by omega), e1]
      · rw [if_neg h3, if_neg (by omega), e1, e2]

end Sys2Proof
end

