-- ==== Sys2Proof/Laws/PerInstr.lean ====
section
/-!
SUPPORT. Sys2Proof/Laws/PerInstr.lean: the family MatchMask: the word of every command has the Match of its row of
the opcode map under the row's Mask (spec 30_encoding.md R31).
-/
namespace Sys2Proof.Laws.MatchMask

/-- `(W AND Mask) = Match` for the word of the command (R31). -/
def Statement (i : Instr) : Prop := encode i &&& maskOf i = matchOf i

theorem nop : Statement .nop := by unfold Statement; decide

theorem load (seed : Reg) : Statement (.load seed) := by
  apply BitVec.eq_of_getLsbD_eq
  intro b hb
  rw [BitVec.getLsbD_and, getLsbD_encode]
  by_cases h : b < 27
  · have hm : (maskOf (.load seed)).getLsbD b = false := by
      simp only [maskOf]; interval_cases b <;> decide
    have hn : (matchOf (.load seed)).getLsbD b = false := by
      simp only [matchOf]; interval_cases b <;> decide
    rw [hm, hn, Bool.and_false]
  · simp only [maskOf, matchOf, opcode]; interval_cases b <;> simp_all

theorem step : Statement .step := by unfold Statement; decide

theorem xorl (d : Byte) (nv : Cover) : Statement (.xorl d nv) := by
  apply BitVec.eq_of_getLsbD_eq
  intro b hb
  rw [BitVec.getLsbD_and, getLsbD_encode]
  simp only [maskOf, matchOf, opcode, operandField, getLsbD_operand]
  interval_cases b <;> simp

theorem xork (d k : Byte) (nv : Cover) : Statement (.xork d k nv) := by
  apply BitVec.eq_of_getLsbD_eq
  intro b hb
  rw [BitVec.getLsbD_and, getLsbD_encode]
  simp only [maskOf, matchOf, opcode, operandField, getLsbD_operand]
  interval_cases b <;> simp

theorem drop : Statement .drop := by unfold Statement; decide

end Sys2Proof.Laws.MatchMask
end

