-- ==== Sys2Proof/Tests/Slice0.lean ====
section
/-!
SUPPORT. Sys2Proof/Tests/Slice0.lean: tests of the model on values printed in the spec (95_test_vectors.md V1 to V9
and the examples inside the rules), the refusals of WellFormed, and a witness for the hypotheses of every statement
that has some. Expected values are the spec's, never the model's own.
-/
namespace Sys2Proof.Tests

open Sys2Proof Sys2Proof.Machine Sys2Proof.Safety

/-! ## Helpers -/

/-- A small state: the register, the flag, and what the host will present. -/
def small (r : Reg) (loaded : Bool) (incoming : List HostEvent) : State :=
  { r := r, loaded := loaded, draws := 0, incoming := incoming, responses := [] }

/-- The next state, if there is one. -/
def after : Result → Option State
  | .next s => some s
  | .fault _ => none
  | .refused _ => none

/-- The responses, LOADED and R after one step in which the host presents `w`. -/
def oneStep (r : Reg) (loaded : Bool) (w : CmdWord) : Option (List RspWord × Bool × Reg) :=
  (after (step (small r loaded [.command w]))).map fun t => (t.responses, t.loaded, t.r)

/-- The responses of one step from reset in which the host presents `w`. -/
def fromReset (w : Nat) : Option (List RspWord) :=
  (after (step (State.reset.withFetchWord 32 w))).map State.responses

/-! ## WellFormed: one ill-formed term for each check (R32(f)) -/

theorem test_wellFormed_refuses_xorl_cover_9 : Instr.wellFormed (.xorl 0x00 9) = false := by decide
theorem test_wellFormed_refuses_xork_cover_15 : Instr.wellFormed (.xork 0x01 0x02 15) = false := by decide
theorem test_wellFormed_takes_cover_8 : Instr.wellFormed (.xorl 0x00 8) = true := by decide

/-! ## Decoding, words written out from the spec's encodings (V8, V9, R27, R31); a rejection's name is log entry 12's -/

theorem test_decode_nop : decode 0b00000000000000000000000000000000#32 = .ok .nop := by decide
theorem test_decode_load : decode 0b00010101010101010101010101010101#32 = .ok (.load 0x5555555) := by decide
theorem test_decode_load_head : decode 0b00010100000000000000000000000000#32 = .ok (.load 0x4000000) := by decide
theorem test_decode_step : decode 0b00100000000000000000000000000000#32 = .ok .step := by decide
theorem test_decode_xorl : decode 0b00110000000010000000000001001000#32 = .ok (.xorl 0x48 8) := by decide
theorem test_decode_xork : decode 0b01000000000001001111111110100101#32 = .ok (.xork 0xA5 0xFF 4) := by decide
theorem test_decode_drop : decode 0b01010000000000000000000000000000#32 = .ok .drop := by decide
theorem test_decode_refuses_bit27 : decode 0x1D555555 = .error .reservedBit27 := by decide
theorem test_decode_refuses_nop_bit : decode 0x00000001 = .error .reservedOperandBits := by decide
theorem test_decode_refuses_xorl_bit8 : decode 0x30080100 = .error .reservedOperandBits := by decide
theorem test_decode_refuses_xork_bit20 : decode 0x40180201 = .error .reservedOperandBits := by decide
theorem test_decode_refuses_cover_9 : decode 0x40090000 = .error .coverCount := by decide
theorem test_decode_refuses_opcode_15 : decode 0xF0000000 = .error .reservedOpcode := by decide
theorem test_encode_xork : encode (.xork 0x3C 0x80 1) = 0x4001803C := by decide
theorem test_encode_load : encode (.load 0x647AD23) = 0x1647AD23 := by decide
theorem test_decodeTableWord : decodeTableWord 32 0x30080048 = some (.xorl 0x48 8) := by decide

/-! ## The functions (V1, V2, V4, V5) -/

theorem test_lfsr_tail_is_a_tap : lfsrStep 0x0000001 = (false, 0x0000003) := by decide
theorem test_lfsr_18_is_no_tap : lfsrStep 0x0000100 = (false, 0x0000200) := by decide
theorem test_lfsr_19_is_a_tap : lfsrStep 0x0000080 = (false, 0x0000101) := by decide
theorem test_lfsr_mixed : lfsrStep 0x647AD23 = (true, 0x48F5A46) := by decide
theorem test_generate_32 :
    generate 0x5555555 32 = bitsOf [0xAA, 0xAA, 0xAA, 0xB3] := by decide
theorem test_transform_bit_order :
    transform [0x00, 0xFF] (bitsOf [0xAA, 0x55]) = [0xAA, 0xAA] := by decide
theorem test_transform_short : transform [0xFF, 0xFF] (List.replicate 9 true) = [0x00, 0x7F] := by decide
theorem test_transform_17_bits :
    transform [0x12, 0x34, 0x56] (List.replicate 17 true) = [0xED, 0xCB, 0xD6] := by decide
theorem test_cipher_Hi : cipher 0x5555555 [0x48, 0x69] = [0xE2, 0xC3] := by decide
theorem test_numStep : numStep 0x5555555 = (1, 0x2AAAAAB) := by decide
theorem test_ring_step :
    (ringStep (ringLoad 0x5555555)).1 = true ∧ ringBit (ringStep (ringLoad 0x5555555)).2 26 = true := by decide
theorem test_seedOfText_length : seedOfText (List.replicate 26 '1') = .error .invalidLength := by decide
theorem test_seedOfText_head : seedOfText ('1' :: List.replicate 26 '0') = .ok 0x4000000 := by decide
theorem test_written_xork : written (.xork 0xB0 0x00 8) = "XORK 0xB0, 0x00, 8".toList := by decide
theorem test_written_load :
    written (.load 0x5555555) = "LOAD \"101010101010101010101010101\"".toList := by decide

/-! ## One step of each command (V6, V7, V8, P5, P6) -/

theorem test_nop_keeps_state : oneStep 0x5555556 true 0x00000000 = some ([0x0000], true, 0x5555556) := by decide
theorem test_load_over_loaded : oneStep 0x2AAAAAB true 0x15555555 = some ([0x0000], true, 0x5555555) := by decide
theorem test_load_first : oneStep 0x2AAAAAB false 0x10000001 = some ([0x0000], true, 0x0000001) := by decide
theorem test_step_head_one : oneStep 0x7FFFFFF true 0x20000000 = some ([0x0001], true, 0x7FFFFFE) := by decide
theorem test_step_not_loaded : oneStep 0x7FFFFFF false 0x20000000 = some ([0x0200], false, 0x7FFFFFF) := by decide
theorem test_xorl_one_bit : oneStep 0x5555598 true 0x300100FF = some ([0x007F], true, 0x2AAAB30) := by decide
theorem test_xorl_eight_bits : oneStep 0x5555598 true 0x30080069 = some ([0x00C3], true, 0x5559803) := by decide
theorem test_xork_key_bits_ignored : oneStep 0x0 false 0x4001FF3C = some ([0x00BC], false, 0x0) := by decide
theorem test_xork_cover_15 : oneStep 0x0 true 0x400F0201 = some ([0x0100], true, 0x0) := by decide
theorem test_drop_clears_loaded :
    (oneStep 0x5555555 true 0x50000000).map (fun p => (p.1, p.2.1)) = some ([0x0000], false) := by decide
theorem test_illegal_keeps_state : oneStep 0x2AAAAAB true 0xFFFFFFFF = some ([0x0100], true, 0x2AAAAAB) := by decide
theorem test_reset_step : fromReset 0x20000000 = some [0x0200] := by decide
theorem test_reset_xorl_cover_0 : fromReset 0x30000012 = some [0x0012] := by decide
theorem test_reset_illegal_wins : fromReset 0x30090000 = some [0x0100] := by decide
theorem test_reset_event :
    (after (step (small 0x5555555 true [.reset]))).map (fun t => (t.loaded, t.responses)) = some (false, []) := by
  decide
theorem test_idle_holds : after (step (small 0x5555555 true [])) = some (small 0x5555555 true []) := by decide

/-! ## Witnesses: a concrete state and operands for the hypotheses of each statement, at boundary values -/

/-- A loaded state with seed A of the spec. -/
def loadedA : State := small 0x5555555 true []

theorem witness_DecodeOfEncode :
    Instr.wellFormed (.xork 0xFF 0xFF 8) = true ∧ Instr.wellFormed (.xorl 0xFF 0) = true ∧
      Instr.wellFormed (.load 0x7FFFFFF) = true := by decide
theorem witness_EncodeOfDecode : decode 0x4008FFFF = .ok (.xork 0xFF 0xFF 8) := by decide
theorem witness_OpcodeMapRows : 6 ≤ ((0x60000000#32).extractLsb' 28 4).toNat ∧ decode 0x17FFFFFF = .ok (.load 0x7FFFFFF) := by
  decide
theorem witness_SeedPacking : decode 0x10000080 = .ok (.load 0x0000080) ∧ 26 < 27 := by decide
theorem witness_ByteOperandPlaces :
    decode 0x30080001 = .ok (.xorl 0x01 8) ∧ decode 0x40088001 = .ok (.xork 0x01 0x80 8) ∧ 7 < 8 := by decide
theorem witness_Shorthands : loadedA.loaded = true := by decide
theorem witness_StepRunsDecodedCommand :
    (small 0 false [.command 0x17FFFFFF, .reset]).incoming = .command 0x17FFFFFF :: [.reset] ∧
      decode 0x17FFFFFF = .ok (.load 0x7FFFFFF) := by decide
theorem witness_IllegalWordIsAnswered :
    (small 0 false [.command 0x20000001]).incoming = .command 0x20000001 :: [] ∧
      decode 0x20000001 = .error .reservedOperandBits ∧ 0x30090000#32 ∈ [0x60000000#32, 0xFFFFFFFF#32, 0x20000001#32,
        0x1D555555#32, 0x30090000#32, 0x30080100#32, 0x00000001#32] := by decide
theorem witness_FetchWordRuns : decodeTableWord 32 0x50000000 = some .drop := by decide
theorem witness_ResetEventEffect : (small 0x5555555 true [.reset]).incoming = .reset :: [] := by decide
theorem witness_IdleStepHolds : loadedA.incoming = [] := by decide
theorem witness_FirstCommandAfterReset :
    Instr.wellFormed (.xorl 0x12 1) = true ∧ Instr.wellFormed (.xorl 0x12 0) = true ∧
      decode 0x20000001 = .error .reservedOperandBits := by decide

/-- A step and the state it leads to, for the statements about a step's next state. -/
theorem witness_step_next :
    step (small 0x5555555 true [.command 0x20000000]) =
      .next { r := 0x2AAAAAB, loaded := true, draws := 0, incoming := [], responses := [0x0001] } := by rfl

/-- A state with one response of each kind at the edge of its range. -/
def answeredThrice : State :=
  { r := 0, loaded := false, draws := 0, incoming := [], responses := [0x00FF, 0x0100, 0x0200] }

theorem witness_StepKeepsResponsesOccur :
    ResponsesOccur answeredThrice ∧ step answeredThrice = .next answeredThrice := by
  refine ⟨fun q h => ?_, rfl⟩
  simp only [answeredThrice, List.mem_cons, List.not_mem_nil, or_false] at h
  rcases h with rfl | rfl | rfl <;> decide
theorem witness_ResponsesAccountForCommands :
    ∃ s t : State, step s = .next t ∧ waiting s = 1 ∧ t.responses.length = 1 := ⟨_, _, witness_step_next, rfl, rfl⟩
theorem witness_UnspecifiedRegisterUnobservable :
    Indistinguishable (small 0x0000000 false [.command 0x20000000]) (small 0x7FFFFFF false [.command 0x20000000]) ∧
      (small 0x0000000 false [.command 0x20000000]).r ≠ (small 0x7FFFFFF false [.command 0x20000000]).r := by
  unfold Indistinguishable
  decide
theorem witness_EarlierResponsesInert : ∃ t, Reaches 1 (small 0x5555555 true [.command 0x20000000]) t :=
  ⟨_, (witness_step_next : _)⟩
theorem witness_OnlyTheseWriteTheBlock :
    ∃ s t : State, step s = .next t ∧ t.r ≠ s.r := ⟨_, _, witness_step_next, by decide⟩
theorem witness_OnlyTheseWriteTheBlock_loaded :
    ∃ s t : State, step s = .next t ∧ t.loaded ≠ s.loaded :=
  ⟨small 0 false [.command 0x15555555], _, rfl, by decide⟩
theorem witness_NopChangesNothing :
    (0x00000001#32).extractLsb' 28 4 = 0#4 ∧ (0x00000001#32).extractLsb' 0 28 ≠ 0#28 ∧
      (0x08000000#32).extractLsb' 0 28 ≠ 0#28 ∧ Instr.wellFormed (.xorl 0xFF 8) = true := by decide
theorem witness_LoadWritesSeed :
    (0x1D555555#32).extractLsb' 28 4 = 0x1#4 ∧ (0x1D555555#32).getLsbD 27 = true ∧
      (0x15555555#32).extractLsb' 28 4 = 0x1#4 ∧ (0x15555555#32).getLsbD 27 = false := by decide
theorem witness_LoadWritesSeed_twice :
    ∃ s t u : State, exec (.load 0) s = .next t ∧ exec (.load 0) t = .next u := ⟨loadedA, _, _, rfl, rfl⟩
theorem witness_StepEmitsHead :
    (0x20000001#32).extractLsb' 28 4 = 0x2#4 ∧ (0x20000001#32).extractLsb' 0 28 ≠ 0#28 ∧
      loadedA.loaded = true ∧ (small 0 false []).loaded = false := by decide
theorem witness_DropDiscardsRegister :
    (0x50000001#32).extractLsb' 28 4 = 0x5#4 ∧ (0x50000001#32).extractLsb' 0 28 ≠ 0#28 ∧
      (1 : Cover).toNat = 1 ∧ (8 : Cover).toNat = 8 ∧ (small 0 false []).loaded = false := by decide
theorem witness_DropDiscardsRegister_next : ∃ s t : State, s.loaded = false ∧ exec .drop s = .next t :=
  ⟨small 0 false [], _, rfl, rfl⟩
theorem witness_XorlCiphersByte :
    (0x30090000#32).extractLsb' 28 4 = 0x3#4 ∧ (8 : Cover).toNat ≤ 8 ∧ loadedA.loaded = true ∧
      (0 : Cover).toNat = 0 ∧ 1 ≤ (1 : Cover).toNat ∧ (small 0 false []).loaded = false := by decide
theorem witness_XorkCiphersByte :
    (0x40090000#32).extractLsb' 28 4 = 0x4#4 ∧ (8 : Cover).toNat ≤ 8 ∧
      ∀ j < (1 : Cover).toNat, byteBit 0x80 j = byteBit 0xFF j := by decide
theorem witness_NotLoadedExactly :
    Instr.wellFormed (.xorl 0x12 1) = true ∧ Instr.wellFormed (.xorl 0x12 0) = true ∧ Instr.wellFormed .step = true := by
  decide
theorem witness_ErrorsArePrecise :
    ∃ (s t : State) (w : CmdWord) (rest : List HostEvent) (q : RspWord), s.incoming = .command w :: rest ∧
      step s = .next t ∧ t.responses = s.responses ++ [q] ∧ statusField q ≠ 0 :=
  ⟨small 0 false [.command 0x20000000], _, 0x20000000, [], 0x0200, rfl, rfl, rfl, by decide⟩
theorem witness_CoverOutsideEncoding : 9 ≤ (9 : Cover).toNat ∧ 9 ≤ (15 : Cover).toNat := by decide
theorem witness_RepeatedCommands :
    ∃ s t u : State, Instr.wellFormed (.xorl 0xFF 0) = true ∧ bitsTaken (.xorl 0xFF 0) = 0 ∧
      exec (.xorl 0xFF 0) s = .next t ∧ exec (.xorl 0xFF 0) t = .next u := ⟨loadedA, _, _, rfl, rfl, rfl, rfl⟩
theorem witness_RepeatedCommands_moving :
    ∃ s t u : State, Instr.wellFormed .step = true ∧ 1 ≤ bitsTaken .step ∧ s.loaded = true ∧
      exec .step s = .next t ∧ exec .step t = .next u := ⟨loadedA, _, _, rfl, by decide, rfl, rfl, rfl⟩
theorem witness_LfsrStepPositions : [26, 20, 19, 0].Perm [0, 19, 20, 26] ∧ 25 < 26 := by decide
theorem witness_RingBufferRefines :
    ringReg { cells := Vector.replicate 27 true, head := 0 } = ringReg { cells := Vector.replicate 27 true, head := 5 } := by
  decide
theorem witness_GenerateIteratesStep : 0 < 1 ∧ 27 < 28 := by decide
theorem witness_KeystreamWindow : 0 < 27 ∧ 26 < 27 := by decide
theorem witness_LfsrStepInvertible : (lfsrStep 0x2AAAAAA).2 = 0x5555555 ∧ 1 ≤ 26 := by decide
theorem witness_ZeroFixedAndLinear : (0x0000001 : Reg) ≠ 0 := by decide
theorem witness_MaximalPeriod : (0x0000001 : Reg) ≠ 0 ∧ (0x5555555 : Reg) ≠ 0 ∧ 0 < 2 ^ 27 - 2 ∧ 2 ^ 27 - 2 < 2 ^ 27 - 1 := by
  decide
theorem witness_PrefixStability : 10 ≤ 27 ∧ 0 ≤ 0 := by decide
theorem witness_LengthExactness :
    ∃ (s t : State) (q : RspWord), exec .step s = .next t ∧ t.responses = s.responses ++ [q] ∧ statusField q = 0 :=
  ⟨loadedA, _, 0x0001, rfl, rfl, by decide⟩
theorem witness_LengthExactness_xor :
    ∃ (s t : State) (q : RspWord), (exec (.xorl 0xFF 0) s = .next t ∨ exec (.xork 0xFF 0x00 0) s = .next t) ∧
      t.responses = s.responses ++ [q] ∧ statusField q = 0 := ⟨loadedA, _, 0x00FF, .inl rfl, rfl, by decide⟩
theorem witness_TransformBits : 15 < 8 * [(0x48 : Byte), 0x69].length := by decide
theorem witness_ShortKeystreamPassesThrough :
    1 < [(0xFF : Byte), 0xFF].length ∧ (List.replicate 8 true).length ≤ 8 * 1 ∧
      8 * 1 ≤ (List.replicate 9 true).length ∧ (List.replicate 9 true).length < 8 * 1 + 8 := by decide
theorem witness_TransformProperties :
    (∀ b ∈ [false, false], b = false) ∧ [(0x12 : Byte), 0x34][0]? = [(0x12 : Byte), 0x56][0]? ∧
      ∀ j < 8, (List.replicate 8 true)[8 * 0 + j]? = (List.replicate 9 true)[8 * 0 + j]? := by decide
theorem witness_CoverCountValues :
    8 * 1 + 8 ≤ 16 ∧ (8 * 1 ≤ 15 ∧ 15 < 8 * 1 + 8) ∧ 8 ≤ 8 * 1 ∧ 8 * [(0x12 : Byte)].length ≤ 8 := by decide
theorem witness_XorByteForms : 8 ≤ 8 ∧ [(0xA5 : Byte), 0x3C][1]? = some 0x3C := by decide
theorem witness_TransformAsXorkCommands :
    [(0xF0 : Byte), 0x80].length = [(0xA5 : Byte), 0x3C].length ∧
      ∀ i < 2, ∀ j < coverCount i [true, true, true, true, false, false, false, false, true].length,
        byteBit ([(0xF0 : Byte), 0x80].getD i 0) j =
          [true, true, true, true, false, false, false, false, true].getD (8 * i + j) false := by decide
theorem witness_TransformAsXorlCommands : 16 = 8 * [(0x48 : Byte), 0x69].length := by decide
theorem witness_KeystreamContinues :
    (small 0x5555598 true []).loaded = true ∧ (small 0x5555598 true []).r = advance 8 0x5555555 ∧
      ∀ i ∈ [Instr.nop, .step, .xorl 0x00 5, .xork 0xB0 0xFF 8], i.wellFormed = true ∧ continues i = true := by decide
theorem witness_Involution : (8 : Cover).toNat ≤ 8 ∧ (0 : Cover).toNat ≤ 8 := by decide
theorem witness_InstancesIndependent : [loadedA, small 0 false []][1]? = some (small 0 false []) := by decide
theorem witness_SeedTextChecked : ('1' :: List.replicate 26 '0').length = 27 ∧ 26 < 27 := by decide

end Sys2Proof.Tests
end

section
/-!
PROOFS. Family 10_state: what one step of the machine does, by the event at the port, and how a run begins.
-/
namespace Sys2Proof.Proofs

open Sys2Proof Sys2Proof.Machine Sys2Proof.Safety

theorem step_of_idle {s : State} (h : s.incoming = []) : step s = .next s := by
  simp [step, fetch_nil h, holdIdle]

theorem step_of_reset {s : State} {rest : List HostEvent} (h : s.incoming = .reset :: rest) :
    step s = .next (acceptReset { s with incoming := rest }) := by
  simp [step, fetch_reset h]

theorem step_of_illegal {s : State} {w : CmdWord} {rest : List HostEvent} {e : DecodeError}
    (h : s.incoming = .command w :: rest) (hw : decode w = .error e) :
    step s = raiseError .illegalCommand { s with incoming := rest } := by
  simp [step, fetch_command h, classify, hw]

theorem step_of_command {s : State} {w : CmdWord} {rest : List HostEvent} {i : Instr}
    (h : s.incoming = .command w :: rest) (hw : decode w = .ok i) :
    step s = exec i { s with incoming := rest } := by
  simp [step, fetch_command h, classify, hw]

theorem reaches_zero (s : State) : Reaches 0 s s := rfl

/-- A run of `n + 1` steps is one step and then a run of `n`. -/
theorem reaches_succ {n : Nat} {s t u : State} (hs : step s = .next t) (ht : Reaches n t u) :
    Reaches (n + 1) s u := by
  have hcore : Host.Core.step Sys2Proof.core s = .next t := hs
  simp only [Reaches, Host.Core.run, hcore]
  exact ht

end Sys2Proof.Proofs
end

section
/-!
PROOFS. Family 10_state, O23. Every command ends in one response; before it, the command has written the
block in one of five ways.
-/
namespace Sys2Proof.Proofs

open Sys2Proof Sys2Proof.Machine

/-- What the command `i` can make of the state `s` before its response: nothing, or the write of LOAD, STEP, XORL with
`NV >= 1`, or DROP (R10, R12). -/
inductive BlockWrite : Instr → State → State → Prop where
  | hold (i : Instr) (s : State) : BlockWrite i s s
  | load (seed : Reg) (s : State) : BlockWrite (.load seed) s (setLoaded (writeReg seed s))
  | step (s : State) : BlockWrite .step s (writeReg (lfsrStep s.r).2 s)
  | xorl (d : Byte) (nv : Cover) (s : State) (h : 1 ≤ nv.toNat) :
      BlockWrite (.xorl d nv) s (writeReg (keystream nv.toNat s.r).2 s)
  | drop (s : State) : BlockWrite .drop s (discardReg s)

/-- Everything a command can do: one write of the block, then one response. -/
theorem exec_blockWrite (i : Instr) (s : State) :
    ∃ st d u, exec i s = .next (respond st d u) ∧ BlockWrite i s u := by
  cases i with
  | nop => exact ⟨.ok, 0, s, rfl, .hold _ s⟩
  | load seed => exact ⟨.ok, 0, _, execLoad_eq seed s, .load seed s⟩
  | step =>
    obtain ⟨-, h⟩ | ⟨-, h⟩ := execStep_cases s
    · exact ⟨.ok, _, _, h, .step s⟩
    · exact ⟨.notLoaded, 0, s, h, .hold _ s⟩
  | xorl d nv =>
    cases hc : coverLegal nv
    · exact ⟨.illegalCommand, 0, s, (exec_cover_illegal d 0 nv s hc).1, .hold _ s⟩
    obtain ⟨-, h⟩ | ⟨-, -, h⟩ := execXorl_cases d nv s hc
    · by_cases hnv : 1 ≤ nv.toNat
      · exact ⟨.ok, _, _, h, .xorl d nv s hnv⟩
      · have hzero : nv.toNat = 0 := by omega
        rw [hzero] at h
        exact ⟨.ok, _, s, h, .hold _ s⟩
    · exact ⟨.notLoaded, 0, s, h, .hold _ s⟩
  | xork d k nv =>
    cases hc : coverLegal nv
    · exact ⟨.illegalCommand, 0, s, (exec_cover_illegal d k nv s hc).2, .hold _ s⟩
    · exact ⟨.ok, _, s, execXork_eq d k nv s hc, .hold _ s⟩
  | drop => exact ⟨.ok, 0, _, execDrop_eq s, .drop s⟩

/-- Only LOAD, STEP, XORL with `NV >= 1` and DROP write `R` (R10). -/
theorem BlockWrite.writers_of_r {i : Instr} {s u : State} (h : BlockWrite i s u) (hr : u.r ≠ s.r) :
    (∃ seed, i = .load seed) ∨ i = .step ∨ (∃ d nv, i = .xorl d nv ∧ 1 ≤ nv.toNat) ∨ i = .drop := by
  cases h with
  | hold => exact absurd rfl hr
  | load seed => exact .inl ⟨seed, rfl⟩
  | step => exact .inr (.inl rfl)
  | xorl d nv _ hnv => exact .inr (.inr (.inl ⟨d, nv, rfl, hnv⟩))
  | drop => exact .inr (.inr (.inr rfl))

/-- Only LOAD sets `LOADED` and only DROP clears it (R12). -/
theorem BlockWrite.writers_of_loaded {i : Instr} {s u : State} (h : BlockWrite i s u) (hl : u.loaded ≠ s.loaded) :
    (u.loaded = true ∧ ∃ seed, i = .load seed) ∨ (u.loaded = false ∧ i = .drop) := by
  cases h with
  | hold => exact absurd rfl hl
  | load seed => exact .inl ⟨rfl, seed, rfl⟩
  | step => exact absurd rfl hl
  | xorl => exact absurd rfl hl
  | drop => exact .inr ⟨rfl, rfl⟩

/-- Settles O23: by the event at the port, and for a legal command by what it can write. -/
theorem onlyTheseWriteTheBlock : Obligations.OnlyTheseWriteTheBlock := by
  intro s t h
  cases hin : s.incoming with
  | nil =>
    obtain rfl : s = t := by simpa [step_of_idle hin] using h
    exact ⟨fun hr => absurd rfl hr, fun hl => absurd rfl hl⟩
  | cons event rest =>
    cases event with
    | reset =>
      obtain rfl : acceptReset { s with incoming := rest } = t := by simpa [step_of_reset hin] using h
      exact ⟨fun _ => .inl ⟨rest, rfl⟩, fun _ => .inl ⟨rfl, rest, rfl⟩⟩
    | command w =>
      cases hw : decode w with
      | error e =>
        obtain rfl : respond .illegalCommand 0 { s with incoming := rest } = t := by
          simpa [step_of_illegal hin hw, raiseError_eq, errorStatus] using h
        exact ⟨fun hr => absurd rfl hr, fun hl => absurd rfl hl⟩
      | ok i =>
        obtain ⟨st, d, u, hexec, hwrite⟩ := exec_blockWrite i { s with incoming := rest }
        obtain rfl : respond st d u = t := by simpa [step_of_command hin hw, hexec] using h
        exact ⟨fun hr => .inr ⟨w, rest, i, rfl, hw, hwrite.writers_of_r hr⟩,
          fun hl => .inr ⟨w, rest, i, rfl, hw, hwrite.writers_of_loaded hl⟩⟩

end Sys2Proof.Proofs
end

section
/-!
PROOFS. Family 10_state, O21. The relation `Indistinguishable` is kept by every operation on the state, so by every
command, so by every step, so by every run.
-/
namespace Sys2Proof.Proofs

open Sys2Proof Sys2Proof.Machine Sys2Proof.Safety

/-- Both results go on, to states that no host can tell apart. -/
def ResultsAgree (a b : Result) : Prop :=
  ∃ s t : State, a = .next s ∧ b = .next t ∧ Indistinguishable s t

/-! ### The operations on the state -/

theorem indistinguishable_withIncoming {s t : State} (h : Indistinguishable s t) (rest : List HostEvent) :
    Indistinguishable { s with incoming := rest } { t with incoming := rest } := by
  obtain ⟨hloaded, hreg, -, hresp⟩ := h
  exact ⟨hloaded, hreg, rfl, hresp⟩

theorem indistinguishable_respond {s t : State} (h : Indistinguishable s t) (st : Status) (d : Byte) :
    Indistinguishable (respond st d s) (respond st d t) := by
  obtain ⟨hloaded, hreg, hin, hresp⟩ := h
  exact ⟨hloaded, hreg, hin, by simp [hresp]⟩

/-- Register writes agree when the values written agree wherever `LOADED` is 1. -/
theorem indistinguishable_writeReg {s t : State} (h : Indistinguishable s t) {v v' : Reg}
    (hv : s.loaded = true → v = v') : Indistinguishable (writeReg v s) (writeReg v' t) := by
  obtain ⟨hloaded, -, hin, hresp⟩ := h
  exact ⟨hloaded, hv, hin, hresp⟩

/-- LOAD writes one value to both registers, so they agree whatever they held. -/
theorem indistinguishable_load {s t : State} (h : Indistinguishable s t) (seed : Reg) :
    Indistinguishable (setLoaded (writeReg seed s)) (setLoaded (writeReg seed t)) := by
  obtain ⟨-, -, hin, hresp⟩ := h
  exact ⟨rfl, fun _ => rfl, hin, hresp⟩

/-- The values a discard leaves may differ: `LOADED` is 0 then. -/
theorem indistinguishable_discardReg {s t : State} (h : Indistinguishable s t) :
    Indistinguishable (discardReg s) (discardReg t) := by
  obtain ⟨-, -, hin, hresp⟩ := h
  exact ⟨rfl, by simp, hin, hresp⟩

theorem indistinguishable_acceptReset {s t : State} (h : Indistinguishable s t) :
    Indistinguishable (acceptReset s) (acceptReset t) :=
  indistinguishable_discardReg h

/-! ### The ends and the checks of a command -/

theorem finish_agree {s t : State} (h : Indistinguishable s t) (d : Byte) :
    ResultsAgree (finish d s) (finish d t) :=
  ⟨_, _, finish_eq d s, finish_eq d t, indistinguishable_respond h .ok d⟩

theorem raiseError_agree {s t : State} (h : Indistinguishable s t) (e : BlockError) :
    ResultsAgree (raiseError e s) (raiseError e t) :=
  ⟨_, _, raiseError_eq e s, raiseError_eq e t, indistinguishable_respond h (errorStatus e) 0⟩

theorem requireCover_agree {s t : State} (h : Indistinguishable s t) (nv : Cover) {go : State → Result}
    (hgo : ResultsAgree (go s) (go t)) : ResultsAgree (requireCover nv s go) (requireCover nv t go) := by
  unfold requireCover
  split
  · exact hgo
  · exact raiseError_agree h .illegalCommand

/-- The NOT_LOADED check lets a command read the register only where the two registers agree, or where the command
takes no keystream bit. -/
theorem requireLoaded_agree {s t : State} (h : Indistinguishable s t) (bits : Nat) {go : State → Result}
    (hgo : bits = 0 ∨ s.r = t.r → ResultsAgree (go s) (go t)) :
    ResultsAgree (requireLoaded bits s go) (requireLoaded bits t go) := by
  have ⟨hloaded, hreg, _, _⟩ := h
  by_cases hpass : bits = 0 ∨ s.loaded = true
  · rw [requireLoaded_pass go hpass, requireLoaded_pass go (hloaded ▸ hpass)]
    exact hgo (hpass.imp_right hreg)
  · obtain ⟨hbits, hl⟩ : 1 ≤ bits ∧ s.loaded = false := by
      simpa [Nat.one_le_iff_ne_zero] using hpass
    rw [requireLoaded_raise go hbits hl, requireLoaded_raise go hbits (hloaded ▸ hl)]
    exact raiseError_agree h .notLoaded

/-! ### Commands, steps and runs -/

theorem execStep_agree {s t : State} (h : Indistinguishable s t) : ResultsAgree (execStep s) (execStep t) := by
  refine requireLoaded_agree h 1 fun hr => ?_
  have hreg : s.r = t.r := hr.resolve_left one_ne_zero
  rw [hreg]
  exact finish_agree (indistinguishable_writeReg h fun _ => rfl) _

theorem execXorl_agree {s t : State} (h : Indistinguishable s t) (d : Byte) (nv : Cover) :
    ResultsAgree (execXorl d nv s) (execXorl d nv t) := by
  have ⟨_, hloadedReg, _, _⟩ := h
  refine requireCover_agree h nv (requireLoaded_agree h nv.toNat ?_)
  rintro (hzero | hreg)
  · rw [hzero]
    exact finish_agree (indistinguishable_writeReg h hloadedReg) _
  · rw [hreg]
    exact finish_agree (indistinguishable_writeReg h fun _ => rfl) _

theorem exec_agree {s t : State} (h : Indistinguishable s t) (i : Instr) : ResultsAgree (exec i s) (exec i t) := by
  cases i with
  | nop => exact finish_agree h 0
  | load seed => exact finish_agree (indistinguishable_load h seed) 0
  | step => exact execStep_agree h
  | xorl d nv => exact execXorl_agree h d nv
  | xork d k nv => exact requireCover_agree h nv (finish_agree h _)
  | drop => exact finish_agree (indistinguishable_discardReg h) 0

theorem step_agree {s t : State} (h : Indistinguishable s t) : ResultsAgree (step s) (step t) := by
  have ⟨_, _, hin, _⟩ := h
  cases ht : t.incoming with
  | nil =>
    rw [step_of_idle (hin.trans ht), step_of_idle ht]
    exact ⟨s, t, rfl, rfl, h⟩
  | cons event rest =>
    have h' := indistinguishable_withIncoming h rest
    cases event with
    | reset =>
      rw [step_of_reset (hin.trans ht), step_of_reset ht]
      exact ⟨_, _, rfl, rfl, indistinguishable_acceptReset h'⟩
    | command w =>
      cases hw : decode w with
      | error e =>
        rw [step_of_illegal (hin.trans ht) hw, step_of_illegal ht hw]
        exact raiseError_agree h' .illegalCommand
      | ok i =>
        rw [step_of_command (hin.trans ht) hw, step_of_command ht hw]
        exact exec_agree h' i

/-- Settles O21, by induction on the number of steps: each step keeps the two states indistinguishable. -/
theorem unspecifiedRegisterUnobservable : Obligations.UnspecifiedRegisterUnobservable := by
  intro n
  induction n with
  | zero => exact fun s t h => ⟨s, t, reaches_zero s, reaches_zero t, h⟩
  | succ n ih =>
    intro s t h
    obtain ⟨s₁, t₁, hs, ht, h₁⟩ := step_agree h
    obtain ⟨s', t', hs', ht', h'⟩ := ih s₁ t₁ h₁
    exact ⟨s', t', reaches_succ hs hs', reaches_succ ht ht', h'⟩

end Sys2Proof.Proofs
end

section
/-!
PROOFS. Family 10_state, O36. The register a ring buffer holds is its abstraction: the step on the ring commutes
with the step on the register (R16(b)).
-/
namespace Sys2Proof.Proofs

open Sys2Proof Sys2Proof.Machine

theorem regBit_ringReg (q : Ring) {p : Nat} (hp : p < 27) : regBit (ringReg q) p = ringBit q p := by
  simp [ringReg, hp]

/-- The cell of position `i` as a number (R16(b)). -/
theorem ringIndex_val (q : Ring) (i : Nat) : (ringIndex q i).val = (q.head.val + i) % 27 := rfl

theorem ringBit_ringLoad (seed : Reg) {p : Nat} (hp : p < 27) : ringBit (ringLoad seed) p = regBit seed p := by
  have hindex : (ringIndex (ringLoad seed) p).val = p := by
    rw [ringIndex_val]
    simp [ringLoad, Nat.mod_eq_of_lt hp]
  have hcell : ringBit (ringLoad seed) p = regBit seed (ringIndex (ringLoad seed) p).val := Vector.get_ofFn _ _
  rw [hcell, hindex]

theorem ringReg_ringLoad (seed : Reg) : ringReg (ringLoad seed) = seed :=
  reg_ext fun p hp => by rw [regBit_ringReg _ hp, ringBit_ringLoad seed hp]

/-- After a step on the ring, position 26 is the cell that the head has left, which holds the feedback bit; every other
position is what stood one place further from the head. -/
theorem ringBit_ringStep (q : Ring) {p : Nat} (hp : p < 27) :
    ringBit (ringStep q).2 p = if p = 26 then feedback (ringReg q) else ringBit q (p + 1) := by
  have hhead : q.head.val < 27 := q.head.isLt
  have hindex : (ringIndex (ringStep q).2 p).val = (ringIndex q (p + 1)).val := by
    have hnew : (ringStep q).2.head.val = (q.head.val + 1) % 27 := rfl
    rw [ringIndex_val, ringIndex_val, hnew]
    omega
  have hleft : q.head.val = (ringIndex q (p + 1)).val ↔ p = 26 := by
    rw [ringIndex_val]
    omega
  have hcell : ringBit (ringStep q).2 p =
      if q.head.val = (ringIndex q (p + 1)).val then feedback (ringReg q) else ringBit q (p + 1) := by
    rw [feedback_eq]
    simp only [regBit_ringReg q, Nat.reduceLT]
    unfold ringBit
    rw [Vector.get_eq_getElem, Vector.get_eq_getElem q.cells (ringIndex q (p + 1))]
    simp only [hindex]
    exact Vector.getElem_set hhead _
  simp only [hcell, hleft]

theorem ringStep_emits (q : Ring) : (ringStep q).1 = (lfsrStep (ringReg q)).1 :=
  (regBit_ringReg q (by decide)).symm

/-- The commuting square of the refinement: the ring's step holds the next register. -/
theorem ringReg_ringStep (q : Ring) : ringReg (ringStep q).2 = (lfsrStep (ringReg q)).2 := by
  refine reg_ext fun p hp => ?_
  have hshift : regBit (lfsrStep (ringReg q)).2 p =
      if p = 26 then feedback (ringReg q) else regBit (ringReg q) (p + 1) := regBit_shiftIn _ _ hp
  rw [regBit_ringReg _ hp, ringBit_ringStep q hp, hshift]
  split
  · rfl
  · rw [regBit_ringReg q (by omega)]

/-- After any number of steps the ring holds the register after as many steps. -/
theorem ringReg_iterate_ringStep (n : Nat) (q : Ring) :
    ringReg ((fun p => (ringStep p).2)^[n] q) = (fun r => (lfsrStep r).2)^[n] (ringReg q) := by
  have hsquare : Function.Semiconj ringReg (fun p => (ringStep p).2) (fun r => (lfsrStep r).2) := ringReg_ringStep
  exact (hsquare.iterate_right n).eq q

/-- Settles O36: the emitted bits and the next registers are functions of the register held, along every run. -/
theorem ringBufferRefines : Obligations.RingBufferRefines := by
  refine ⟨ringReg_ringLoad, fun q => ⟨ringStep_emits q, ringReg_ringStep q⟩, fun q q' h n => ?_⟩
  rw [ringStep_emits, ringStep_emits, ringReg_iterate_ringStep, ringReg_iterate_ringStep, h]

end Sys2Proof.Proofs
end

section
/-!
PROOFS. Family 10_state, O35. Position p of the register is binary digit 26 - p of its number, and shift, mask and XOR
on the number act on the digits as the step does on the positions (R16(a)).
-/
namespace Sys2Proof.Proofs

open Sys2Proof Sys2Proof.Machine

theorem regBit_eq_testBit (r : Reg) {p : Nat} (hp : p < 27) : regBit r p = r.toNat.testBit (26 - p) := by
  simp [regBit, BitVec.getMsbD, hp, BitVec.testBit_toNat]

/-- The positions before `n` are the number with its last `27 - n` binary digits cleared. -/
theorem sum_positions_eq (r : Reg) {n : Nat} (hn : n ≤ 27) :
    ((List.range n).map fun p => (regBit r p).toNat * 2 ^ (26 - p)).sum =
      r.toNat / 2 ^ (27 - n) * 2 ^ (27 - n) := by
  induction n with
  | zero => simp [Nat.div_eq_of_lt r.isLt]
  | succ n ih =>
    have hexp : 27 - n = 26 - n + 1 := by omega
    have hexp' : 27 - (n + 1) = 26 - n := by omega
    have hdigit : r.toNat / 2 ^ (26 - n) = 2 * (r.toNat / 2 ^ (26 - n + 1)) + (regBit r n).toNat := by
      rw [regBit_eq_testBit r hn, Nat.toNat_testBit, Nat.pow_succ, ← Nat.div_div_eq_div_mul, Nat.div_add_mod]
    rw [List.sum_range_succ, ih (by omega), hexp, hexp', hdigit]
    ring

/-- A number masked with 1 is its last binary digit. -/
theorem and_one_eq_testBit (v : Nat) : v &&& 1 = (v.testBit 0).toNat := by
  rw [Nat.toNat_testBit, Nat.and_one_is_mod, pow_zero, Nat.div_one]

/-- The first digit of the number is the head of the register. -/
theorem numStep_emits (r : Reg) : (numStep r.toNat).1 = (lfsrStep r).1.toNat := by
  have hhead : (lfsrStep r).1 = r.toNat.testBit 26 :=
    regBit_eq_testBit r (p := 0) (by decide)
  rw [hhead, Nat.toNat_testBit, ← Nat.shiftRight_eq_div_pow, ← Nat.and_one_is_mod]
  rfl

/-- The last digit of the XOR of the shifted numbers is the feedback bit. -/
theorem shifted_xor_and_one (r : Reg) :
    ((r.toNat >>> 26) ^^^ (r.toNat >>> 7) ^^^ (r.toNat >>> 6) ^^^ r.toNat) &&& 1 = (feedback r).toNat := by
  simp only [and_one_eq_testBit, feedback_eq, regBit_eq_testBit r, Nat.reduceLT, Nat.reduceSub, Nat.testBit_xor,
    Nat.testBit_shiftRight, Nat.add_zero]

/-- Shifting a digit in at the end, with the register's 27 digits kept. -/
theorem toNat_shiftIn (r : Reg) (b : Bool) : (shiftIn r b).toNat = ((r.toNat <<< 1) % 2 ^ 27) ||| b.toNat := by
  have heven : (r.toNat <<< 1) % 2 ^ 27 = (r.toNat % 2 ^ 26) <<< 1 := by omega
  have hdigit : b.toNat < 2 ^ 1 := b.toNat_lt
  rw [shiftIn, BitVec.toNat_shiftConcat, heven, ← Nat.shiftLeft_add_eq_or_of_lt hdigit]
  omega

theorem numStep_next (r : Reg) : (numStep r.toNat).2 = (lfsrStep r).2.toNat := by
  have hnext : (lfsrStep r).2 = shiftIn r (feedback r) := rfl
  rw [hnext, toNat_shiftIn, ← shifted_xor_and_one]
  rfl

/-- Settles O35: all 27 positions make the number, and both parts of the step agree. -/
theorem numberFormAgrees : Obligations.NumberFormAgrees := by
  refine fun r => ⟨?_, Prod.ext (numStep_emits r) (numStep_next r)⟩
  simp [sum_positions_eq r le_rfl]

end Sys2Proof.Proofs
end

section
/-!
PROOFS. Family 20_memory, O17. Every meaning ends in `finish` or `raiseError`, and each of the two answers the command
once with a word that may occur; the checks only choose between them.
-/
namespace Sys2Proof.Proofs

open Sys2Proof Sys2Proof.Machine Sys2Proof.Safety

/-- A result that goes on from the state `s` with exactly one more response, a word that may occur, and the host's
script as it was (R24, R30). -/
def AnsweredOnce (s : State) (a : Result) : Prop :=
  ∃ (q : RspWord) (t : State),
    a = .next t ∧ t.responses = s.responses ++ [q] ∧ occurs q = true ∧ t.incoming = s.incoming

theorem occurs_responseWord_ok (d : Byte) : occurs (responseWord .ok d) = true := by
  have hbound : (responseWord .ok d).toNat ≤ 0x00FF := by
    rw [responseWord_toNat]
    simp only [statusCode, BitVec.toNat_ofNat]
    omega
  simp [occurs, hbound]

theorem occurs_responseWord_error (e : BlockError) : occurs (responseWord (errorStatus e) 0) = true := by
  cases e <;> decide

/-- `finish` answers once, also after writes of the block that keep both ends of the port. -/
theorem finish_answeredOnce {s u : State} (hresp : u.responses = s.responses) (hin : u.incoming = s.incoming)
    (d : Byte) : AnsweredOnce s (finish d u) :=
  ⟨responseWord .ok d, _, finish_eq d u, by simp [hresp], occurs_responseWord_ok d, by simp [hin]⟩

theorem raiseError_answeredOnce (e : BlockError) (s : State) : AnsweredOnce s (raiseError e s) :=
  ⟨responseWord (errorStatus e) 0, _, raiseError_eq e s, by simp, occurs_responseWord_error e, by simp⟩

theorem requireCover_answeredOnce (nv : Cover) (s : State) {go : State → Result} (hgo : AnsweredOnce s (go s)) :
    AnsweredOnce s (requireCover nv s go) := by
  obtain ⟨h, -⟩ | ⟨h, -⟩ := requireCover_cases nv s go
  · exact h ▸ hgo
  · exact h ▸ raiseError_answeredOnce .illegalCommand s

theorem requireLoaded_answeredOnce (bits : Nat) (s : State) {go : State → Result} (hgo : AnsweredOnce s (go s)) :
    AnsweredOnce s (requireLoaded bits s go) := by
  obtain ⟨h, -⟩ | ⟨h, -⟩ := requireLoaded_cases bits s go
  · exact h ▸ hgo
  · exact h ▸ raiseError_answeredOnce .notLoaded s

theorem execStep_answeredOnce (s : State) : AnsweredOnce s (execStep s) :=
  requireLoaded_answeredOnce 1 s (finish_answeredOnce rfl rfl _)

theorem execXorl_answeredOnce (d : Byte) (nv : Cover) (s : State) : AnsweredOnce s (execXorl d nv s) :=
  requireCover_answeredOnce nv s (requireLoaded_answeredOnce nv.toNat s (finish_answeredOnce rfl rfl _))

theorem exec_answeredOnce (i : Instr) (s : State) : AnsweredOnce s (exec i s) := by
  cases i with
  | nop => exact finish_answeredOnce rfl rfl _
  | load seed => exact finish_answeredOnce rfl rfl _
  | step => exact execStep_answeredOnce s
  | xorl d nv => exact execXorl_answeredOnce d nv s
  | xork d k nv => exact requireCover_answeredOnce nv s (finish_answeredOnce rfl rfl _)
  | drop => exact finish_answeredOnce rfl rfl _

/-- Settles O17, by the command's meaning. -/
theorem oneResponsePerPerformedCommand : Obligations.OneResponsePerPerformedCommand :=
  exec_answeredOnce

end Sys2Proof.Proofs
end

section
/-!
PROOFS. Family 20_memory, O20 and O10. A command, legal or not, is taken from the host's script and answered once; the
other two steps give no response and take no command.
-/
namespace Sys2Proof.Proofs

open Sys2Proof Sys2Proof.Machine Sys2Proof.Safety

theorem waiting_of_reset {s : State} {rest : List HostEvent} (h : s.incoming = .reset :: rest) :
    waiting s = (rest.filter isCommand).length := by
  simp [waiting, h, isCommand]

theorem waiting_of_command {s : State} {w : CmdWord} {rest : List HostEvent} (h : s.incoming = .command w :: rest) :
    waiting s = (rest.filter isCommand).length + 1 := by
  rw [waiting, h, List.filter_cons_of_pos rfl, List.length_cons]

/-- A step that takes a command word answers it once, whether the word is legal or not. -/
theorem step_answeredOnce {s : State} {w : CmdWord} {rest : List HostEvent} (h : s.incoming = .command w :: rest) :
    AnsweredOnce { s with incoming := rest } (step s) := by
  cases hw : decode w with
  | error e => exact step_of_illegal h hw ▸ raiseError_answeredOnce .illegalCommand _
  | ok i => exact step_of_command h hw ▸ exec_answeredOnce i _

/-- Settles O20, by the event at the port: only a command gives a response, and then it waits no longer. -/
theorem responsesAccountForCommands : Obligations.ResponsesAccountForCommands := by
  intro s t hstep
  cases hin : s.incoming with
  | nil =>
    obtain rfl : s = t := by simpa [step_of_idle hin] using hstep
    exact ⟨List.prefix_refl _, rfl⟩
  | cons event rest =>
    cases event with
    | reset =>
      obtain rfl : acceptReset { s with incoming := rest } = t := by simpa [step_of_reset hin] using hstep
      exact ⟨List.prefix_refl _, by rw [waiting_of_reset hin]; rfl⟩
    | command w =>
      obtain ⟨q, t', hnext, hresp, -, hrest⟩ := step_answeredOnce hin
      obtain rfl : t' = t := by simpa [hnext] using hstep
      refine ⟨⟨[q], hresp.symm⟩, ?_⟩
      have hwaiting : waiting t' = (rest.filter isCommand).length := by rw [waiting, hrest]
      have hcount : t'.responses.length = s.responses.length + 1 := by rw [hresp]; simp
      rw [waiting_of_command hin]
      omega

/-- Settles O10, which is the rule for a step that takes a legal word. -/
theorem stepRunsDecodedCommand : Obligations.StepRunsDecodedCommand :=
  fun _ _ _ _ => step_of_command

end Sys2Proof.Proofs
end

section
/-!
PROOFS. Family 20_memory, O33. A command that takes no keystream bit writes the same whatever the register holds; one
that takes some moves the register of a loaded block on.
-/
namespace Sys2Proof.Proofs

open Sys2Proof Sys2Proof.Machine Sys2Proof.Safety

/-- What a command that takes no keystream bit writes of the block: the seed, a discarded register, or nothing. -/
def writeWithoutKeystream : Instr → State → State
  | .load seed, s => setLoaded (writeReg seed s)
  | .drop, s => discardReg s
  | _, s => s

/-- A command that takes no keystream bit succeeds in every state, and always with the same response. -/
theorem exec_of_bitsTaken_eq_zero {i : Instr} (hwf : i.wellFormed = true) (hbits : bitsTaken i = 0) :
    ∃ d : Byte, ∀ s : State, exec i s = .next (respond .ok d (writeWithoutKeystream i s)) := by
  cases i with
  | nop => exact ⟨0, finish_eq 0⟩
  | load seed => exact ⟨0, execLoad_eq seed⟩
  | step => cases hbits
  | xorl d nv =>
    have hzero : nv.toNat = 0 := hbits
    refine ⟨xorByte d [] 0, fun s => ?_⟩
    obtain ⟨-, h⟩ | ⟨hpos, -⟩ := execXorl_cases d nv s hwf
    · rw [hzero] at h
      exact h
    · omega
  | xork d k nv => exact ⟨_, fun s => execXork_eq d k nv s hwf⟩
  | drop => exact ⟨0, execDrop_eq⟩

@[simp] theorem writeWithoutKeystream_responses (i : Instr) (s : State) :
    (writeWithoutKeystream i s).responses = s.responses := by
  cases i <;> rfl

/-- Doing the write once more, after any response, changes neither LOADED nor a loaded register. -/
theorem writeWithoutKeystream_idempotent (i : Instr) (st : Status) (d : Byte) (s : State) :
    (writeWithoutKeystream i (respond st d (writeWithoutKeystream i s))).loaded = (writeWithoutKeystream i s).loaded ∧
      ((writeWithoutKeystream i s).loaded = true →
        (writeWithoutKeystream i (respond st d (writeWithoutKeystream i s))).r = (writeWithoutKeystream i s).r) := by
  cases i with
  | drop => exact ⟨rfl, fun hloaded => nomatch hloaded⟩
  | _ => exact ⟨rfl, fun _ => rfl⟩

/-- A command that takes keystream bits moves the register of a loaded block on by as many steps, and the block stays
loaded (R41, R51). -/
theorem exec_of_bitsTaken_pos {i : Instr} {s t : State} (hwf : i.wellFormed = true) (hbits : 1 ≤ bitsTaken i)
    (hloaded : s.loaded = true) (h : exec i s = .next t) :
    t.r = advance (bitsTaken i) s.r ∧ t.loaded = true := by
  suffices hexec : ∃ d : Byte, exec i s = .next (respond .ok d (writeReg (advance (bitsTaken i) s.r) s)) by
    obtain ⟨d, hexec⟩ := hexec
    obtain rfl : respond .ok d (writeReg (advance (bitsTaken i) s.r) s) = t := by simpa [hexec] using h
    exact ⟨rfl, hloaded⟩
  cases i with
  | nop | load _ | xork _ _ _ | drop => cases hbits
  | step =>
    obtain ⟨-, hstep⟩ | ⟨hunloaded, -⟩ := execStep_cases s
    · exact ⟨_, hstep⟩
    · simp [hloaded] at hunloaded
  | xorl d nv =>
    obtain ⟨-, hxorl⟩ | ⟨-, hunloaded, -⟩ := execXorl_cases d nv s hwf
    · exact ⟨_, hxorl⟩
    · simp [hloaded] at hunloaded

/-- Settles O33, by whether the command takes keystream bits. -/
theorem repeatedCommands : Obligations.RepeatedCommands := by
  constructor
  · intro i s t u hwf hbits hfirst hsecond
    obtain ⟨d, hexec⟩ := exec_of_bitsTaken_eq_zero hwf hbits
    obtain rfl : respond .ok d (writeWithoutKeystream i s) = t := by simpa [hexec] using hfirst
    obtain rfl : respond .ok d (writeWithoutKeystream i _) = u := by simpa [hexec] using hsecond
    obtain ⟨hloaded, hreg⟩ := writeWithoutKeystream_idempotent i .ok d s
    exact ⟨hloaded, hreg, by simp [List.drop_append]⟩
  · intro i s t u hwf hbits hloaded hfirst hsecond
    obtain ⟨hreg, hloaded'⟩ := exec_of_bitsTaken_pos hwf hbits hloaded hfirst
    obtain ⟨hreg', -⟩ := exec_of_bitsTaken_pos hwf hbits hloaded' hsecond
    exact ⟨hreg, hreg'⟩

end Sys2Proof.Proofs
end

section
/-!
PROOFS. Family 20_memory, O59. The two checks of a seed text as a condition on its characters, and the characters as
the positions of the seed.
-/
namespace Sys2Proof.Proofs

open Sys2Proof Sys2Proof.Machine

/-- A text with only the characters 0 and 1. -/
def BinaryText (text : List Char) : Prop := ∀ c ∈ text, c = '0' ∨ c = '1'

/-- The register with a 1 exactly where the text has the character 1. -/
def textReg (text : List Char) : Reg := regOf fun p => text.getD p '0' == '1'

theorem all_digits_iff_binaryText (text : List Char) :
    text.all (fun c => c == '0' || c == '1') = true ↔ BinaryText text := by
  simp [BinaryText]

/-- Everything the check of a seed text can answer. -/
theorem seedOfText_cases (text : List Char) :
    (text.length = 27 ∧ BinaryText text ∧ seedOfText text = .ok (textReg text)) ∨
      (¬ (text.length = 27 ∧ BinaryText text) ∧ ∃ e, seedOfText text = .error e) := by
  unfold seedOfText
  split
  next hlen =>
    split
    next hall => exact .inl ⟨hlen, (all_digits_iff_binaryText text).mp hall, rfl⟩
    next hall => exact .inr ⟨fun h => hall ((all_digits_iff_binaryText text).mpr h.2), _, rfl⟩
  next hlen => exact .inr ⟨fun h => hlen h.1, _, rfl⟩

theorem seedOfText_eq_ok_iff (text : List Char) (seed : Reg) :
    seedOfText text = .ok seed ↔ text.length = 27 ∧ BinaryText text ∧ textReg text = seed := by
  obtain ⟨hlen, hbin, h⟩ | ⟨hbad, e, h⟩ := seedOfText_cases text
  · simp [h, hlen, hbin]
  · simp only [h, reduceCtorEq, false_iff]
    exact fun ⟨hlen, hbin, _⟩ => hbad ⟨hlen, hbin⟩

theorem seedOfText_eq_error_iff (text : List Char) :
    (∃ e, seedOfText text = .error e) ↔ ¬ (text.length = 27 ∧ BinaryText text) := by
  obtain ⟨hlen, hbin, h⟩ | ⟨hbad, e, h⟩ := seedOfText_cases text
  · simp [h, hlen, hbin]
  · simp [h, hbad]

/-- A text of 27 characters is binary and stands for the seed exactly when its characters are the seed's positions. -/
theorem binaryText_and_textReg_eq_iff {text : List Char} (hlen : text.length = 27) (seed : Reg) :
    BinaryText text ∧ textReg text = seed ↔
      ∀ p < 27, text[p]? = some (if regBit seed p then '1' else '0') := by
  constructor
  · rintro ⟨hbin, rfl⟩ p hp
    have hget : text[p]? = some text[p] := List.getElem?_eq_getElem (by omega)
    obtain h | h := hbin text[p] (List.getElem_mem _) <;> simp [textReg, hp, hget, h]
  · intro hpos
    refine ⟨fun c hc => ?_, reg_ext fun p hp => ?_⟩
    · obtain ⟨p, hp, rfl⟩ := List.getElem_of_mem hc
      have h := hpos p (hlen ▸ hp)
      rw [List.getElem?_eq_getElem hp, Option.some.injEq] at h
      rw [h]
      cases regBit seed p <;> simp
    · cases hbit : regBit seed p <;> simp [textReg, hp, hpos p hp, hbit]

/-- Settles O59, by the two checks. -/
theorem seedTextChecked : Obligations.SeedTextChecked := by
  refine fun text => ⟨fun seed => ?_, ?_⟩
  · rw [seedOfText_eq_ok_iff]
    exact and_congr_right fun hlen => binaryText_and_textReg_eq_iff hlen seed
  · rw [seedOfText_eq_error_iff, not_and_or]
    simp [BinaryText]

end Sys2Proof.Proofs
end

section
/-!
PROOFS. Family 30_encoding, O1 and O2. A word is the concatenation of its fields, so a word is the encoding of a
command exactly when its fields are the command's; and decoding reads those same fields.
-/
namespace Sys2Proof.Proofs

open Sys2Proof

/-! ### Words and their fields -/

theorem append_eq_append_iff {m n : Nat} {a a' : BitVec m} {b b' : BitVec n} :
    a ++ b = a' ++ b' ↔ a = a' ∧ b = b' := by
  constructor
  · intro h
    have hhigh := congrArg (BitVec.extractLsb' n m) h
    have hlow := congrArg (BitVec.extractLsb' 0 n) h
    rw [BitVec.extractLsb'_append_eq_left, BitVec.extractLsb'_append_eq_left] at hhigh
    rw [BitVec.extractLsb'_append_eq_right, BitVec.extractLsb'_append_eq_right] at hlow
    exact ⟨hhigh, hlow⟩
  · rintro ⟨rfl, rfl⟩
    rfl

/-- A word is its opcode, its bit 27 and its operand field (R28). -/
theorem word_eq_append (w : CmdWord) : w = fieldOp w ++ w.extractLsb' 27 1 ++ fieldSeed w := by
  have htop : fieldOp w ++ w.extractLsb' 27 1 = w.extractLsb' 27 5 :=
    BitVec.extractLsb'_append_extractLsb'_eq_extractLsb' rfl
  have hall : w.extractLsb' 27 5 ++ fieldSeed w = w.extractLsb' 0 32 :=
    BitVec.extractLsb'_append_extractLsb'_eq_extractLsb' rfl
  rw [htop, hall, BitVec.extractLsb'_eq_self]

/-- The operand field is the four fields of formats B and K (R28). -/
theorem fieldSeed_eq_append (w : CmdWord) : fieldSeed w = fieldHigh w ++ fieldNv w ++ fieldK w ++ fieldD w := by
  have hcover : fieldHigh w ++ fieldNv w = w.extractLsb' 16 11 :=
    BitVec.extractLsb'_append_extractLsb'_eq_extractLsb' rfl
  have hkey : w.extractLsb' 16 11 ++ fieldK w = w.extractLsb' 8 19 :=
    BitVec.extractLsb'_append_extractLsb'_eq_extractLsb' rfl
  have hdata : w.extractLsb' 8 19 ++ fieldD w = w.extractLsb' 0 27 :=
    BitVec.extractLsb'_append_extractLsb'_eq_extractLsb' rfl
  rw [hcover, hkey, hdata, fieldSeed]

theorem fieldSeed_eq_append_iff {w : CmdWord} {high : BitVec 7} {nv : Cover} {k d : Byte} :
    fieldSeed w = high ++ nv ++ k ++ d ↔
      fieldHigh w = high ∧ fieldNv w = nv ∧ fieldK w = k ∧ fieldD w = d := by
  rw [fieldSeed_eq_append, append_eq_append_iff, append_eq_append_iff, append_eq_append_iff, and_assoc, and_assoc]

theorem bit27_eq_false_iff (w : CmdWord) : w.getLsbD 27 = false ↔ w.extractLsb' 27 1 = 0#1 := by
  constructor
  · intro h
    refine BitVec.eq_of_getLsbD_eq fun b hb => ?_
    obtain rfl : b = 0 := by omega
    simpa [BitVec.getLsbD_extractLsb'] using h
  · intro h
    have hbit := congrArg (BitVec.getLsbD · 0) h
    simpa [BitVec.getLsbD_extractLsb'] using hbit

/-- The fields of a word are those of the command `i`: its opcode, bit 27 at 0, its operand field (R28). -/
structure FieldsOf (i : Instr) (w : CmdWord) : Prop where
  bit27 : w.getLsbD 27 = false
  op : fieldOp w = opcode i
  operand : fieldSeed w = operandField i

theorem encode_eq_iff_fieldsOf (i : Instr) (w : CmdWord) : encode i = w ↔ FieldsOf i w := by
  constructor
  · rintro rfl
    exact ⟨bit27_encode i, fieldOp_encode i, fieldSeed_encode i⟩
  · rintro ⟨h27, hop, hfield⟩
    rw [word_eq_append w, hop, hfield, (bit27_eq_false_iff w).mp h27]
    rfl

/-! ### The decoder, format by format and opcode by opcode (R33) -/

theorem decodeZ_eq_ok_iff {w : CmdWord} {i j : Instr} : decodeZ i w = .ok j ↔ fieldSeed w = 0 ∧ i = j := by
  unfold decodeZ
  split <;> simp_all

theorem decodeB_eq_ok_iff {w : CmdWord} {i : Instr} :
    decodeB w = .ok i ↔
      (fieldHigh w = 0 ∧ fieldK w = 0) ∧ coverLegal (fieldNv w) = true ∧ .xorl (fieldD w) (fieldNv w) = i := by
  unfold decodeB
  split
  · split <;> simp_all
  · simp_all

theorem decodeK_eq_ok_iff {w : CmdWord} {i : Instr} :
    decodeK w = .ok i ↔
      fieldHigh w = 0 ∧ coverLegal (fieldNv w) = true ∧ .xork (fieldD w) (fieldK w) (fieldNv w) = i := by
  unfold decodeK
  split
  · split <;> simp_all
  · simp_all

theorem decode_of_bit27 {w : CmdWord} (h : w.getLsbD 27 = true) : decode w = .error .reservedBit27 := by
  simp [decode, h]

section Opcodes

variable {w : CmdWord} (h27 : w.getLsbD 27 = false)
include h27

theorem decode_of_op_nop (hop : fieldOp w = 0x0#4) : decode w = decodeZ .nop w := by
  rw [decode, h27, hop]
  rfl

theorem decode_of_op_load (hop : fieldOp w = 0x1#4) : decode w = .ok (.load (fieldSeed w)) := by
  rw [decode, h27, hop]
  rfl

theorem decode_of_op_step (hop : fieldOp w = 0x2#4) : decode w = decodeZ .step w := by
  rw [decode, h27, hop]
  rfl

theorem decode_of_op_xorl (hop : fieldOp w = 0x3#4) : decode w = decodeB w := by
  rw [decode, h27, hop]
  rfl

theorem decode_of_op_xork (hop : fieldOp w = 0x4#4) : decode w = decodeK w := by
  rw [decode, h27, hop]
  rfl

theorem decode_of_op_drop (hop : fieldOp w = 0x5#4) : decode w = decodeZ .drop w := by
  rw [decode, h27, hop]
  rfl

theorem decode_of_op_reserved (hop : 6 ≤ (fieldOp w).toNat) : decode w = .error .reservedOpcode := by
  rw [decode, h27, if_neg Bool.false_ne_true]
  split
  case h_7 => rfl
  all_goals omega

end Opcodes

/-- The opcodes of R31. -/
theorem opcode_values : ∀ op : BitVec 4,
    op = 0x0#4 ∨ op = 0x1#4 ∨ op = 0x2#4 ∨ op = 0x3#4 ∨ op = 0x4#4 ∨ op = 0x5#4 ∨ 6 ≤ op.toNat := by
  decide

theorem fieldsOf_of_decode {w : CmdWord} {i : Instr} (h : decode w = .ok i) : i.wellFormed = true ∧ FieldsOf i w := by
  cases h27 : w.getLsbD 27
  case true => simp [decode_of_bit27 h27] at h
  case false =>
    obtain hop | hop | hop | hop | hop | hop | hop := opcode_values (fieldOp w)
    · rw [decode_of_op_nop h27 hop, decodeZ_eq_ok_iff] at h
      obtain ⟨hzero, rfl⟩ := h
      exact ⟨rfl, h27, hop, hzero⟩
    · rw [decode_of_op_load h27 hop, Except.ok.injEq] at h
      obtain rfl := h
      exact ⟨rfl, h27, hop, rfl⟩
    · rw [decode_of_op_step h27 hop, decodeZ_eq_ok_iff] at h
      obtain ⟨hzero, rfl⟩ := h
      exact ⟨rfl, h27, hop, hzero⟩
    · rw [decode_of_op_xorl h27 hop, decodeB_eq_ok_iff] at h
      obtain ⟨⟨hhigh, hk⟩, hcover, rfl⟩ := h
      exact ⟨hcover, h27, hop, fieldSeed_eq_append_iff.mpr ⟨hhigh, rfl, hk, rfl⟩⟩
    · rw [decode_of_op_xork h27 hop, decodeK_eq_ok_iff] at h
      obtain ⟨hhigh, hcover, rfl⟩ := h
      exact ⟨hcover, h27, hop, fieldSeed_eq_append_iff.mpr ⟨hhigh, rfl, rfl, rfl⟩⟩
    · rw [decode_of_op_drop h27 hop, decodeZ_eq_ok_iff] at h
      obtain ⟨hzero, rfl⟩ := h
      exact ⟨rfl, h27, hop, hzero⟩
    · simp [decode_of_op_reserved h27 hop] at h

theorem decode_of_fieldsOf {w : CmdWord} {i : Instr} (hwf : i.wellFormed = true) (h : FieldsOf i w) :
    decode w = .ok i := by
  obtain ⟨h27, hop, hfield⟩ := h
  cases i with
  | nop => rw [decode_of_op_nop h27 hop, decodeZ_eq_ok_iff]; exact ⟨hfield, rfl⟩
  | load seed => rw [decode_of_op_load h27 hop, hfield]; rfl
  | step => rw [decode_of_op_step h27 hop, decodeZ_eq_ok_iff]; exact ⟨hfield, rfl⟩
  | xorl d nv =>
    obtain ⟨hhigh, rfl, hk, rfl⟩ := fieldSeed_eq_append_iff.mp hfield
    rw [decode_of_op_xorl h27 hop, decodeB_eq_ok_iff]
    exact ⟨⟨hhigh, hk⟩, hwf, rfl⟩
  | xork d k nv =>
    obtain ⟨hhigh, rfl, rfl, rfl⟩ := fieldSeed_eq_append_iff.mp hfield
    rw [decode_of_op_xork h27 hop, decodeK_eq_ok_iff]
    exact ⟨hhigh, hwf, rfl⟩
  | drop => rw [decode_of_op_drop h27 hop, decodeZ_eq_ok_iff]; exact ⟨hfield, rfl⟩

/-- Settles O1: an encoded command has the fields of the command. -/
theorem decodeOfEncode : Obligations.DecodeOfEncode :=
  fun i hwf => decode_of_fieldsOf hwf ((encode_eq_iff_fieldsOf i _).mp rfl)

/-- Settles O2: the fields that decoding reads are the whole word. -/
theorem encodeOfDecode : Obligations.EncodeOfDecode := by
  intro w i h
  obtain ⟨hwf, hfields⟩ := fieldsOf_of_decode h
  exact ⟨hwf, (encode_eq_iff_fieldsOf i w).mpr hfields⟩

end Sys2Proof.Proofs
end

section
/-!
PROOFS. Family 30_encoding, O18. A step gives no response or one that may occur.
-/
namespace Sys2Proof.Proofs

open Sys2Proof Sys2Proof.Machine Sys2Proof.Safety

/-- Settles O18, by the event at the port: only a command adds a response, and it adds one that may occur. -/
theorem stepKeepsResponsesOccur : Obligations.StepKeepsResponsesOccur := by
  intro s t hs hstep
  cases hin : s.incoming with
  | nil =>
    obtain rfl : s = t := by simpa [step_of_idle hin] using hstep
    exact hs
  | cons event rest =>
    cases event with
    | reset =>
      obtain rfl : acceptReset { s with incoming := rest } = t := by simpa [step_of_reset hin] using hstep
      exact hs
    | command w =>
      obtain ⟨q, t', hnext, hresp, hoccurs, -⟩ := step_answeredOnce hin
      obtain rfl : t' = t := by simpa [hnext] using hstep
      intro p hp
      rw [hresp, List.mem_append, List.mem_singleton] at hp
      obtain hold | rfl := hp
      · exact hs p hold
      · exact hoccurs

end Sys2Proof.Proofs
end

section
/-!
PROOFS. Family 30_encoding, O4. The decoder rejects a word exactly when one of the six clauses of R32 holds of it.
-/
namespace Sys2Proof.Proofs

open Sys2Proof

theorem coverLegal_eq_false_iff (nv : Cover) : coverLegal nv = false ↔ 9 ≤ nv.toNat := by
  rw [coverLegal, decide_eq_false_iff_not]
  omega

theorem decodeZ_rejects_iff {i : Instr} {w : CmdWord} : (∃ e, decodeZ i w = .error e) ↔ fieldSeed w ≠ 0 := by
  unfold decodeZ
  split <;> simp_all

theorem decodeB_rejects_iff {w : CmdWord} :
    (∃ e, decodeB w = .error e) ↔ (fieldHigh w ≠ 0 ∨ fieldK w ≠ 0) ∨ 9 ≤ (fieldNv w).toNat := by
  rw [← coverLegal_eq_false_iff, ← not_and_or]
  unfold decodeB
  split
  · split <;> simp_all
  · simp_all

theorem decodeK_rejects_iff {w : CmdWord} :
    (∃ e, decodeK w = .error e) ↔ fieldHigh w ≠ 0 ∨ 9 ≤ (fieldNv w).toNat := by
  rw [← coverLegal_eq_false_iff]
  unfold decodeK
  split
  · split <;> simp_all
  · simp_all

/-- Settles O4: bit 27 decides alone, and without it each opcode has its own clauses. -/
theorem illegalEncodingClauses : Obligations.IllegalEncodingClauses := by
  intro w
  rw [← fieldOp, ← fieldSeed, ← fieldHigh, ← fieldNv, ← fieldK]
  cases h27 : w.getLsbD 27
  case true => simp [decode_of_bit27 h27]
  case false =>
    obtain hop | hop | hop | hop | hop | hop | hop := opcode_values (fieldOp w)
    · simp [hop, decode_of_op_nop h27 hop, decodeZ_rejects_iff]
    · simp [hop, decode_of_op_load h27 hop]
    · simp [hop, decode_of_op_step h27 hop, decodeZ_rejects_iff]
    · simp [hop, decode_of_op_xorl h27 hop, decodeB_rejects_iff]
    · simp [hop, decode_of_op_xork h27 hop, decodeK_rejects_iff]
    · simp [hop, decode_of_op_drop h27 hop, decodeZ_rejects_iff]
    · simp [hop, decode_of_op_reserved h27 hop]

end Sys2Proof.Proofs
end

section
/-!
PROOFS. Family 30_encoding, O3. Under the Mask of a row a word keeps the fields that the row fixes.
-/
namespace Sys2Proof.Proofs

open Sys2Proof

theorem coverLegal_eq_true_iff (nv : Cover) : coverLegal nv = true ↔ nv.toNat ≤ 8 := decide_eq_true_iff

/-- A field that the mask keeps whole is read from the masked word. -/
theorem extractLsb'_of_masked {w mask value : CmdWord} (h : w &&& mask = value) {start len : Nat}
    (hmask : mask.extractLsb' start len = BitVec.allOnes len) :
    w.extractLsb' start len = value.extractLsb' start len := by
  rw [← h, BitVec.extractLsb'_and, hmask, BitVec.and_allOnes]

/-- Where the mask keeps bit 27 and the row has it at 0, it is 0 in the word. -/
theorem bit27_of_masked {w mask value : CmdWord} (h : w &&& mask = value)
    (hmask : mask.extractLsb' 27 1 = BitVec.allOnes 1) (hvalue : value.extractLsb' 27 1 = 0#1) :
    w.getLsbD 27 = false :=
  (bit27_eq_false_iff w).mpr ((extractLsb'_of_masked h hmask).trans hvalue)

theorem decode_eq_ok_iff_encode {i : Instr} (hwf : i.wellFormed = true) (w : CmdWord) :
    decode w = .ok i ↔ encode i = w := by
  constructor
  · exact fun h => (encodeOfDecode w i h).2
  · rintro rfl
    exact decodeOfEncode i hwf

/-- The rows of format Z: the mask keeps the whole word. -/
theorem decode_eq_ok_iff_full_mask {i : Instr} (hwf : i.wellFormed = true) (w : CmdWord) :
    decode w = .ok i ↔ w &&& 0xFFFFFFFF#32 = encode i := by
  have hall : w &&& 0xFFFFFFFF#32 = w := BitVec.and_allOnes
  rw [hall, decode_eq_ok_iff_encode hwf, eq_comm]

theorem decode_load_row (w : CmdWord) :
    (∃ seed, decode w = .ok (.load seed)) ↔ w &&& 0xF8000000#32 = 0x10000000#32 := by
  constructor
  · rintro ⟨seed, h⟩
    obtain ⟨-, rfl⟩ := encodeOfDecode w _ h
    exact Laws.MatchMask.load seed
  · intro h
    have h27 : w.getLsbD 27 = false := bit27_of_masked h rfl rfl
    have hop : fieldOp w = 0x1#4 := extractLsb'_of_masked h rfl
    exact ⟨fieldSeed w, decode_of_op_load h27 hop⟩

theorem fields_of_decode_xorl {w : CmdWord} {d : Byte} {nv : Cover} (h : decode w = .ok (.xorl d nv)) :
    fieldD w = d ∧ fieldNv w = nv ∧ nv.toNat ≤ 8 := by
  obtain ⟨hwf, hfields⟩ := fieldsOf_of_decode h
  obtain ⟨-, hnv, -, hd⟩ := fieldSeed_eq_append_iff.mp hfields.operand
  exact ⟨hd, hnv, (coverLegal_eq_true_iff nv).mp hwf⟩

theorem fields_of_decode_xork {w : CmdWord} {d k : Byte} {nv : Cover} (h : decode w = .ok (.xork d k nv)) :
    fieldD w = d ∧ fieldK w = k ∧ fieldNv w = nv ∧ nv.toNat ≤ 8 := by
  obtain ⟨hwf, hfields⟩ := fieldsOf_of_decode h
  obtain ⟨-, hnv, hk, hd⟩ := fieldSeed_eq_append_iff.mp hfields.operand
  exact ⟨hd, hk, hnv, (coverLegal_eq_true_iff nv).mp hwf⟩

theorem decode_xorl_row (w : CmdWord) :
    (∃ d nv, decode w = .ok (.xorl d nv)) ↔
      w &&& 0xFFF0FF00#32 = 0x30000000#32 ∧ (fieldNv w).toNat ≤ 8 := by
  constructor
  · rintro ⟨d, nv, h⟩
    obtain ⟨-, hnv, hcover⟩ := fields_of_decode_xorl h
    obtain ⟨-, rfl⟩ := encodeOfDecode w _ h
    exact ⟨Laws.MatchMask.xorl d nv, by rwa [hnv]⟩
  · rintro ⟨h, hcover⟩
    have h27 : w.getLsbD 27 = false := bit27_of_masked h rfl rfl
    have hop : fieldOp w = 0x3#4 := extractLsb'_of_masked h rfl
    have hhigh : fieldHigh w = 0 := extractLsb'_of_masked h rfl
    have hk : fieldK w = 0 := extractLsb'_of_masked h rfl
    refine ⟨fieldD w, fieldNv w, ?_⟩
    rw [decode_of_op_xorl h27 hop, decodeB_eq_ok_iff]
    exact ⟨⟨hhigh, hk⟩, (coverLegal_eq_true_iff _).mpr hcover, rfl⟩

theorem decode_xork_row (w : CmdWord) :
    (∃ d k nv, decode w = .ok (.xork d k nv)) ↔
      w &&& 0xFFF00000#32 = 0x40000000#32 ∧ (fieldNv w).toNat ≤ 8 := by
  constructor
  · rintro ⟨d, k, nv, h⟩
    obtain ⟨-, -, hnv, hcover⟩ := fields_of_decode_xork h
    obtain ⟨-, rfl⟩ := encodeOfDecode w _ h
    exact ⟨Laws.MatchMask.xork d k nv, by rwa [hnv]⟩
  · rintro ⟨h, hcover⟩
    have h27 : w.getLsbD 27 = false := bit27_of_masked h rfl rfl
    have hop : fieldOp w = 0x4#4 := extractLsb'_of_masked h rfl
    have hhigh : fieldHigh w = 0 := extractLsb'_of_masked h rfl
    refine ⟨fieldD w, fieldK w, fieldNv w, ?_⟩
    rw [decode_of_op_xork h27 hop, decodeK_eq_ok_iff]
    exact ⟨hhigh, (coverLegal_eq_true_iff _).mpr hcover, rfl⟩

/-- Settles O3: a row at a time; opcodes 6 to 15 are clause (a) of R32, and decoding is a function. -/
theorem opcodeMapRows : Obligations.OpcodeMapRows := by
  intro w
  refine ⟨decode_eq_ok_iff_full_mask (i := .nop) rfl w, decode_load_row w,
    decode_eq_ok_iff_full_mask (i := .step) rfl w, decode_xorl_row w, decode_xork_row w,
    decode_eq_ok_iff_full_mask (i := .drop) rfl w, ?_, ?_⟩
  · exact fun hop => (illegalEncodingClauses w).mpr (.inl hop)
  · exact fun i j hi hj => Except.ok.inj (hi.symm.trans hj)

end Sys2Proof.Proofs
end

section
/-!
PROOFS. Family 30_encoding, O5. The legal words are the encodings of the well-formed commands, and a well-formed
command is one of six kinds with any operands, the cover count excepted.
-/
namespace Sys2Proof.Proofs

open Sys2Proof

/-- The words that decode (R32). -/
abbrev LegalWord := { w : CmdWord // ∃ i, decode w = .ok i }

/-- The commands of the block with their operands (R31). -/
abbrev LegalCommand := { i : Instr // i.wellFormed = true }

/-- The nine legal cover counts (R29). -/
abbrev LegalCover := { nv : Cover // coverLegal nv = true }

/-- The operands of the commands, a summand for each row of R31. -/
abbrev Operands := Unit ⊕ Reg ⊕ Unit ⊕ (LegalCover × Byte) ⊕ (LegalCover × Byte × Byte) ⊕ Unit

/-- A well-formed command is a row of R31 and its operands. -/
def legalCommandEquiv : LegalCommand ≃ Operands where
  toFun
    | ⟨.nop, _⟩ => .inl ()
    | ⟨.load seed, _⟩ => .inr (.inl seed)
    | ⟨.step, _⟩ => .inr (.inr (.inl ()))
    | ⟨.xorl d nv, h⟩ => .inr (.inr (.inr (.inl (⟨nv, h⟩, d))))
    | ⟨.xork d k nv, h⟩ => .inr (.inr (.inr (.inr (.inl (⟨nv, h⟩, k, d)))))
    | ⟨.drop, _⟩ => .inr (.inr (.inr (.inr (.inr ()))))
  invFun
    | .inl () => ⟨.nop, rfl⟩
    | .inr (.inl seed) => ⟨.load seed, rfl⟩
    | .inr (.inr (.inl ())) => ⟨.step, rfl⟩
    | .inr (.inr (.inr (.inl (nv, d)))) => ⟨.xorl d nv.1, nv.2⟩
    | .inr (.inr (.inr (.inr (.inl (nv, k, d))))) => ⟨.xork d k nv.1, nv.2⟩
    | .inr (.inr (.inr (.inr (.inr ())))) => ⟨.drop, rfl⟩
  left_inv := by rintro ⟨i, h⟩; cases i <;> rfl
  right_inv := by rintro (_ | _ | _ | _ | _ | _) <;> rfl

/-- The word of a well-formed command. -/
def encodeLegal (c : LegalCommand) : LegalWord := ⟨encode c.1, c.1, decodeOfEncode c.1 c.2⟩

theorem encodeLegal_bijective : Function.Bijective encodeLegal := by
  constructor
  · intro a b h
    have hword : encode a.1 = encode b.1 := congrArg Subtype.val h
    refine Subtype.ext (Except.ok.inj (ε := DecodeError) ?_)
    rw [← decodeOfEncode a.1 a.2, hword, decodeOfEncode b.1 b.2]
  · rintro ⟨w, i, h⟩
    obtain ⟨hwf, hencode⟩ := encodeOfDecode w i h
    exact ⟨⟨i, hwf⟩, Subtype.ext hencode⟩

theorem natCard_bitVec (n : Nat) : Nat.card (BitVec n) = 2 ^ n := by
  rw [Nat.card_congr BitVec.equivFin.toEquiv, Nat.card_fin]

theorem natCard_legalCover : Nat.card LegalCover = 9 := by
  rw [Nat.card_eq_fintype_card]
  decide

theorem natCard_operands : Nat.card Operands = 1 + 2 ^ 27 + 1 + 9 * 2 ^ 8 + 9 * 2 ^ 16 + 1 := by
  simp only [Nat.card_sum, Nat.card_prod, Nat.card_unique, natCard_bitVec, natCard_legalCover]
  norm_num

/-- Settles O5: count the operands of each row. -/
theorem legalWordCount : Obligations.LegalWordCount := by
  have hcommand : Nat.card LegalCommand = Nat.card LegalWord :=
    Nat.card_eq_of_bijective encodeLegal encodeLegal_bijective
  have hoperands : Nat.card LegalCommand = Nat.card Operands := Nat.card_congr legalCommandEquiv
  exact (hcommand.symm.trans hoperands).trans natCard_operands

end Sys2Proof.Proofs
end

section
/-!
PROOFS. Family 30_encoding, O7 and O8. Position p of an operand is a fixed bit of the word.
-/
namespace Sys2Proof.Proofs

open Sys2Proof Sys2Proof.Machine

theorem regBit_fieldSeed (w : CmdWord) {p : Nat} (hp : p < 27) : regBit (fieldSeed w) p = w.getLsbD (26 - p) := by
  have hplace : 26 - p < 27 := by omega
  simp [regBit, fieldSeed, BitVec.getMsbD, hp, hplace]

theorem byteBit_fieldD (w : CmdWord) {j : Nat} (hj : j < 8) : byteBit (fieldD w) j = w.getLsbD (7 - j) := by
  have hplace : 7 - j < 8 := by omega
  simp [byteBit, fieldD, BitVec.getMsbD, hj, hplace]

theorem byteBit_fieldK (w : CmdWord) {j : Nat} (hj : j < 8) : byteBit (fieldK w) j = w.getLsbD (15 - j) := by
  have hplace : 7 - j < 8 := by omega
  have hshift : 8 + (7 - j) = 15 - j := by omega
  simp [byteBit, fieldK, BitVec.getMsbD, hj, hplace, hshift]

/-- The seed as a binary numeral, its head the most significant digit (R27). -/
theorem toNat_eq_sum_of_positions (seed : Reg) :
    seed.toNat = ((List.range 27).map fun p => if regBit seed p then 2 ^ (26 - p) else 0).sum := by
  have hdigit (p : Nat) :
      (regBit seed p).toNat * 2 ^ (26 - p) = if regBit seed p then 2 ^ (26 - p) else 0 := by
    cases regBit seed p <;> simp
  rw [(numberFormAgrees seed).1]
  simp only [hdigit]

/-- Settles O7: the operand field of a LOAD word is the seed. -/
theorem seedPacking : Obligations.SeedPacking := by
  refine ⟨fun seed p hp => ?_, fun w seed h => ?_, by decide, by decide, by decide⟩
  · rw [← regBit_fieldSeed _ hp, fieldSeed_encode]
    rfl
  · obtain ⟨-, hfields⟩ := fieldsOf_of_decode h
    obtain rfl : fieldSeed w = seed := hfields.operand
    exact ⟨fun p hp => regBit_fieldSeed w hp, toNat_eq_sum_of_positions (fieldSeed w)⟩

/-- Settles O8: D, K and NV are fields of the word. -/
theorem byteOperandPlaces : Obligations.ByteOperandPlaces := by
  constructor
  · intro w d nv h
    obtain ⟨rfl, rfl, hcover⟩ := fields_of_decode_xorl h
    exact ⟨fun j => byteBit_fieldD w, rfl, hcover⟩
  · intro w d k nv h
    obtain ⟨rfl, rfl, rfl, hcover⟩ := fields_of_decode_xork h
    exact ⟨fun j => byteBit_fieldD w, fun j => byteBit_fieldK w, rfl, hcover⟩

end Sys2Proof.Proofs
end

section
/-!
PROOFS. Family 30_encoding, O6 and O9. Words written out in the spec, and KSBYTE.
-/
namespace Sys2Proof.Proofs

open Sys2Proof Sys2Proof.Machine Sys2Proof.Safety

/-- Settles O6, by running the decoder on the eleven words. -/
theorem writtenWordsDecode : Obligations.WrittenWordsDecode := by
  unfold Obligations.WrittenWordsDecode
  decide

/-- The response of a command that succeeds is its DATA byte with zeros above (R30). -/
theorem responseWord_ok (d : Byte) : responseWord .ok d = d.setWidth 16 := by
  apply BitVec.eq_of_toNat_eq
  rw [responseWord_toNat, BitVec.toNat_setWidth]
  simp only [statusCode, BitVec.toNat_ofNat]
  omega

/-- XOR with a data byte of zeros gives the key bits (R35). -/
theorem byteBit_xorByte_zero (kb : Bits) {nv j : Nat} (hj : j < 8) (hnv : j < nv) :
    byteBit (xorByte 0x00 kb nv) j = kb.getD j false := by
  have hzero : byteBit 0x00 j = false := by simp [byteBit]
  rw [byteBit_xorByte _ _ _ hj, hzero]
  simp [xorCell, hnv]

/-- Settles O9: KSBYTE is XORL of a zero byte under a full cover, which a loaded block performs. -/
theorem shorthands : Obligations.Shorthands := by
  refine ⟨fun _ => rfl, fun _ _ => rfl, by decide, fun s hloaded => ?_⟩
  refine ⟨xorByte 0x00 (generate s.r 8) 8, fun j hj => byteBit_xorByte_zero _ hj hj, ?_⟩
  rw [← responseWord_ok]
  obtain ⟨-, h⟩ | ⟨-, hunloaded, -⟩ := execXorl_cases 0x00 8 s rfl
  · exact h
  · simp [hloaded] at hunloaded

end Sys2Proof.Proofs
end

section
/-!
PROOFS. Family 40_keystream_generator, O34 and O39. Where each bit of the next register comes from, read forward (R36)
and backward (R43(c)).
-/
namespace Sys2Proof.Proofs

open Sys2Proof Sys2Proof.Machine

/-- The register after one keystream step (R36). -/
def nextReg (r : Reg) : Reg := (lfsrStep r).2

/-- Every position but the tail takes the bit one place further from the head. -/
theorem regBit_nextReg (r : Reg) {p : Nat} (hp : p < 26) : regBit (nextReg r) p = regBit r (p + 1) := by
  have hshift := regBit_shiftIn r (feedback r) (p := p) (by omega)
  rwa [if_neg (by omega)] at hshift

/-- The tail takes the feedback bit. -/
theorem regBit_nextReg_tail (r : Reg) :
    regBit (nextReg r) 26 = Bool.xor (Bool.xor (Bool.xor (regBit r 0) (regBit r 19)) (regBit r 20)) (regBit r 26) :=
  (regBit_shiftIn r (feedback r) (p := 26) (by decide)).trans (feedback_eq r)

/-- Visiting the tap `t` (R36): a bit that is flipped where the tapped position holds a 1. -/
def visitTap (r : Reg) (f : Bool) (t : Nat) : Bool := if regBit r t = true then Bool.xor f true else f

theorem visitTap_eq_xor (r : Reg) (f : Bool) (t : Nat) : visitTap r f t = Bool.xor f (regBit r t) := by
  cases h : regBit r t <;> simp [visitTap, h]

/-- Two visits can be swapped. -/
theorem visitTap_rightCommutative (r : Reg) : RightCommutative (visitTap r) :=
  ⟨fun f t u => by simp only [visitTap_eq_xor, Bool.xor_right_comm]⟩

theorem foldl_visitTap (r : Reg) {order : List Nat} (h : order.Perm [0, 19, 20, 26]) :
    order.foldl (visitTap r) false = regBit (nextReg r) 26 := by
  have := visitTap_rightCommutative r
  rw [h.foldl_eq, regBit_nextReg_tail]
  simp [visitTap_eq_xor]

/-- Settles O34, position by position. -/
theorem lfsrStepPositions : Obligations.LfsrStepPositions :=
  ⟨fun r => ⟨rfl, fun _ => regBit_nextReg r, regBit_nextReg_tail r, fun _ => foldl_visitTap r⟩, by decide⟩

/-- The head of the register before the step: the other three tapped bits cancel out of the new tail (R43(c)). -/
theorem head_of_nextReg (r : Reg) :
    regBit r 0 = Bool.xor (Bool.xor (Bool.xor (regBit (nextReg r) 26) (regBit (nextReg r) 18))
      (regBit (nextReg r) 19)) (regBit (nextReg r) 25) := by
  rw [regBit_nextReg_tail, regBit_nextReg r (by decide : 18 < 26), regBit_nextReg r (by decide : 19 < 26),
    regBit_nextReg r (by decide : 25 < 26)]
  cases regBit r 0 <;> cases regBit r 19 <;> cases regBit r 20 <;> cases regBit r 26 <;> rfl

theorem nextReg_injective : Function.Injective nextReg := by
  intro a b h
  refine reg_ext fun p hp => ?_
  cases p with
  | zero => rw [head_of_nextReg a, head_of_nextReg b, h]
  | succ p => rw [← regBit_nextReg a (by omega), ← regBit_nextReg b (by omega), h]

/-- Settles O39: an injective map of the finitely many registers is a bijection. -/
theorem lfsrStepInvertible : Obligations.LfsrStepInvertible := by
  refine ⟨Finite.injective_iff_bijective.mp nextReg_injective, ?_⟩
  rintro r _ rfl
  refine ⟨fun i hlow hhigh => ?_, head_of_nextReg r⟩
  have hplace : i - 1 + 1 = i := by omega
  have hbit := regBit_nextReg r (p := i - 1) (by omega)
  rw [hplace] at hbit
  exact hbit.symm

end Sys2Proof.Proofs
end

section
/-!
PROOFS. Family 40_keystream_generator, O37, O38 and O40. The keystream as a sequence of bits, of which the register
shows a window of 27 (R43(a)); and the step as a map that commutes with XOR (R43(e)).
-/
namespace Sys2Proof.Proofs

open Sys2Proof Sys2Proof.Machine

/-! ### The keystream as a sequence -/

/-- Bit `t` of the keystream of a seed: what step `t` emits (R37). -/
def keyBit (seed : Reg) (t : Nat) : Bool := regBit (advance t seed) 0

theorem advance_succ (n : Nat) (r : Reg) : advance (n + 1) r = advance n (nextReg r) := rfl

theorem advance_succ' (n : Nat) (r : Reg) : advance (n + 1) r = nextReg (advance n r) := advance_add n 1 r

theorem advance_eq_iterate (n : Nat) (r : Reg) : advance n r = nextReg^[n] r := by
  induction n generalizing r with
  | zero => rfl
  | succ n ih => rw [advance_succ, ih, Function.iterate_succ_apply]

theorem generate_succ (seed : Reg) (n : Nat) :
    generate seed (n + 1) = regBit seed 0 :: generate (nextReg seed) n := rfl

theorem generate_eq_map (seed : Reg) (n : Nat) : generate seed n = (List.range n).map (keyBit seed) := by
  induction n generalizing seed with
  | zero => rfl
  | succ n ih =>
    rw [generate_succ, ih, List.range_succ_eq_map, List.map_cons, List.map_map]
    rfl

theorem getD_generate (seed : Reg) {n t : Nat} (ht : t < n) : (generate seed n).getD t false = keyBit seed t := by
  simp [generate_eq_map, ht]

/-- Settles O37: bit `t` is the head of the register after `t` steps. -/
theorem generateIteratesStep : Obligations.GenerateIteratesStep := by
  refine ⟨fun seed n => ⟨length_keystream n seed, fun t ht => ?_⟩, fun _ => rfl, by decide⟩
  rw [getD_generate seed ht, keyBit, advance_eq_iterate]
  rfl

/-! ### The window and the recurrence -/

/-- R43(a): position `i` of the register after `t` steps is keystream bit `t + i`. -/
theorem regBit_advance (seed : Reg) (t : Nat) {i : Nat} (hi : i < 27) :
    regBit (advance t seed) i = keyBit seed (t + i) := by
  induction i generalizing t with
  | zero => rfl
  | succ i ih =>
    rw [← regBit_nextReg _ (by omega), ← advance_succ', ih (t + 1) (by omega), Nat.succ_add_eq_add_succ]

/-- R43(b): the bit 27 places on is the tail of the register after the next step. -/
theorem keyBit_recurrence (seed : Reg) (t : Nat) :
    keyBit seed (t + 27) = Bool.xor (Bool.xor (Bool.xor (keyBit seed t) (keyBit seed (t + 19)))
      (keyBit seed (t + 20))) (keyBit seed (t + 26)) := by
  have htail : keyBit seed (t + 27) = regBit (nextReg (advance t seed)) 26 := by
    rw [← advance_succ', regBit_advance seed (t + 1) (by decide), Nat.succ_add_eq_add_succ]
  simp only [htail, regBit_nextReg_tail, regBit_advance seed t, Nat.reduceLT, Nat.add_zero]

theorem generate_27 (seed : Reg) : generate seed 27 = regBits seed := by
  rw [generate_eq_map, regBits]
  refine List.map_congr_left fun p hp => ?_
  rw [← Nat.zero_add p, ← regBit_advance seed 0 (List.mem_range.mp hp), Nat.zero_add]
  rfl

/-- Settles O38, by the window and the recurrence on the sequence. -/
theorem keystreamWindow : Obligations.KeystreamWindow := by
  refine fun seed t => ⟨fun i hi => ?_, generate_27 seed, ?_⟩
  · rw [getD_generate seed (by omega), regBit_advance seed t hi]
  · rw [getD_generate seed (by omega : t + 27 < t + 28), getD_generate seed (by omega : t < t + 28),
      getD_generate seed (by omega : t + 19 < t + 28), getD_generate seed (by omega : t + 20 < t + 28),
      getD_generate seed (by omega : t + 26 < t + 28), keyBit_recurrence]

/-! ### Linearity -/

@[simp] theorem nextReg_zero : nextReg 0#27 = 0#27 := by decide

@[simp] theorem regBit_xor (a b : Reg) (p : Nat) : regBit (a ^^^ b) p = Bool.xor (regBit a p) (regBit b p) :=
  BitVec.getMsbD_xor

/-- The step commutes with XOR: the feedback bit has no constant term. -/
theorem nextReg_xor (a b : Reg) : nextReg (a ^^^ b) = nextReg a ^^^ nextReg b := by
  refine reg_ext fun p hp => ?_
  rw [regBit_xor]
  by_cases htail : p = 26
  · subst htail
    simp only [regBit_nextReg_tail, regBit_xor, Bool.xor_assoc, Bool.xor_left_comm]
  · have hp' : p < 26 := by omega
    simp only [regBit_nextReg _ hp', regBit_xor]

theorem advance_xor (n : Nat) (a b : Reg) : advance n (a ^^^ b) = advance n a ^^^ advance n b := by
  induction n with
  | zero => rfl
  | succ n ih => simp only [advance_succ', ih, nextReg_xor]

@[simp] theorem advance_zero_reg (n : Nat) : advance n 0#27 = 0#27 := by
  rw [advance_eq_iterate, Function.iterate_fixed nextReg_zero]

theorem advance_injective (n : Nat) : Function.Injective (advance n) := by
  have h : advance n = nextReg^[n] := funext (advance_eq_iterate n)
  exact h ▸ nextReg_injective.iterate n

theorem advance_ne_zero {r : Reg} (hr : r ≠ 0) (n : Nat) : advance n r ≠ 0 :=
  fun h => hr (advance_injective n (h.trans (advance_zero_reg n).symm))

theorem keyBit_xor (a b : Reg) (t : Nat) : keyBit (a ^^^ b) t = Bool.xor (keyBit a t) (keyBit b t) := by
  rw [keyBit, advance_xor, regBit_xor, keyBit, keyBit]

theorem generate_zero_seed (n : Nat) : generate 0#27 n = List.replicate n false := by
  have hbit : keyBit 0#27 = fun _ => false := funext fun t => by rw [keyBit, advance_zero_reg]; decide
  rw [generate_eq_map, hbit, List.map_const', List.length_range]

theorem generate_xor (a b : Reg) (n : Nat) :
    generate (a ^^^ b) n = List.zipWith Bool.xor (generate a n) (generate b n) := by
  simp [generate_eq_map, List.zipWith_map, keyBit_xor]

/-- Settles O40, by linearity and injectivity of the step. -/
theorem zeroFixedAndLinear : Obligations.ZeroFixedAndLinear :=
  ⟨by decide, generate_zero_seed, fun _ n hr => advance_ne_zero hr n, generate_xor⟩

end Sys2Proof.Proofs
end

section
/-!
PROOFS. Family 40_keystream_generator, towards O41. Polynomials in the step: a 27-bit code stands for a polynomial over
GF(2) of degree at most 26, codes are multiplied modulo `x^27 + x^26 + x^20 + x^19 + 1` (R44), and the action of a code
on registers, `x` being the step, turns that product into composition. So the effect of `n` steps on every register is
one code, which squaring finds in about `log n` products.
-/
namespace Sys2Proof.Proofs

open Sys2Proof Sys2Proof.Machine

/-! ### Polynomials applied to a map -/

/-- The map commutes with XOR. -/
def XorLinear (f : Reg → Reg) : Prop := ∀ a b, f (a ^^^ b) = f a ^^^ f b

theorem XorLinear.map_xor {f : Reg → Reg} (hf : XorLinear f) (a b : Reg) : f (a ^^^ b) = f a ^^^ f b := hf a b

theorem XorLinear.map_zero {f : Reg → Reg} (hf : XorLinear f) : f 0#27 = 0#27 := by
  have h := hf 0#27 0#27
  rwa [BitVec.xor_self, BitVec.xor_self] at h

theorem XorLinear.map_ite {f : Reg → Reg} (hf : XorLinear f) (b : Bool) (r : Reg) :
    f (if b then r else 0#27) = if b then f r else 0#27 := by
  cases b
  · exact hf.map_zero
  · rfl

/-- `p(f)` on `r`, for the polynomial with coefficients `p`, highest first, by Horner's rule. -/
def polyApply (f : Reg → Reg) (p : Bits) (r : Reg) : Reg := p.foldl (fun v b => f v ^^^ if b then r else 0#27) 0#27

section Horner

variable {f g h : Reg → Reg}

theorem polyApply_append_singleton (p : Bits) (b : Bool) (r : Reg) :
    polyApply f (p ++ [b]) r = f (polyApply f p r) ^^^ if b then r else 0#27 := by
  simp [polyApply]

theorem polyApply_cons (hf : XorLinear f) (b : Bool) (p : Bits) (r : Reg) :
    polyApply f (b :: p) r = (if b then f^[p.length] r else 0#27) ^^^ polyApply f p r := by
  induction p using List.reverseRecOn with
  | nil =>
    have hsingle : polyApply f [b] r = f 0#27 ^^^ if b then r else 0#27 := rfl
    rw [hsingle, hf.map_zero, BitVec.xor_comm]
    rfl
  | append_singleton p c ih =>
    rw [← List.cons_append, polyApply_append_singleton, ih, hf, hf.map_ite, polyApply_append_singleton,
      List.length_append, List.length_singleton, Function.iterate_succ_apply', BitVec.xor_assoc]

/-- Polynomials add as their coefficients do. -/
theorem polyApply_map_xor (hf : XorLinear f) (c d : Nat → Bool) (l : List Nat) (r : Reg) :
    polyApply f (l.map fun i => Bool.xor (c i) (d i)) r =
      polyApply f (l.map c) r ^^^ polyApply f (l.map d) r := by
  induction l using List.reverseRecOn with
  | nil => exact BitVec.xor_zero.symm
  | append_singleton l i ih =>
    have hcoeff : (if Bool.xor (c i) (d i) then r else 0#27) =
        (if c i then r else 0#27) ^^^ if d i then r else 0#27 := by
      cases c i <;> cases d i <;> simp
    simp only [List.map_append, List.map_cons, List.map_nil, polyApply_append_singleton, ih, hf.map_xor, hcoeff]
    ac_rfl

/-- A linear map that turns `f` into `g` turns `p(f)` into `p(g)`. -/
theorem map_polyApply (hh : XorLinear h) (hfg : Function.Semiconj h f g) (p : Bits) (r : Reg) :
    h (polyApply f p r) = polyApply g p (h r) := by
  induction p using List.reverseRecOn with
  | nil => exact hh.map_zero
  | append_singleton p b ih =>
    rw [polyApply_append_singleton, hh, hfg.eq, ih, hh.map_ite, polyApply_append_singleton]

end Horner

/-! ### Codes and their action on registers -/

/-- The action of a code: the polynomial whose coefficients stand in `c`, that of `x^26` at the head, at the step. -/
def act (c r : Reg) : Reg := polyApply nextReg (regBits c) r

/-- `x` times a code: where a term `x^27` arises, `x^26 + x^20 + x^19 + 1` stands for it. -/
def mulX (c : Reg) : Reg := shiftIn c false ^^^ if regBit c 0 then 0x4180001#27 else 0#27

/-- The product of two codes. -/
def mulCode (a b : Reg) : Reg := polyApply mulX (regBits a) b

theorem xorLinear_act (r : Reg) : XorLinear (act · r) := by
  intro a b
  have hcoeffs : regBits (a ^^^ b) = (List.range 27).map fun i => Bool.xor (regBit a i) (regBit b i) :=
    List.map_congr_left fun i _ => regBit_xor a b i
  simp only [act, hcoeffs]
  exact polyApply_map_xor nextReg_xor (regBit a) (regBit b) (List.range 27) r

theorem act_one (r : Reg) : act 1#27 r = r := by
  have hcoeffs : regBits 1#27 = List.replicate 26 false ++ [true] := by decide
  rw [act, hcoeffs]
  simp [polyApply]

/-- The characteristic polynomial (R44): the recurrence of R43(b), for the whole register. -/
theorem advance_27 (r : Reg) : advance 27 r = r ^^^ advance 19 r ^^^ advance 20 r ^^^ advance 26 r := by
  refine reg_ext fun p hp => ?_
  have hself : regBit r p = keyBit r (0 + p) := regBit_advance r 0 hp
  simp only [regBit_xor, regBit_advance r _ hp, hself, Nat.add_comm _ p, keyBit_recurrence, Nat.add_zero]

theorem act_reduction (r : Reg) : act 0x4180001#27 r = advance 27 r := by
  have hcoeffs : regBits 0x4180001#27 =
      true :: List.replicate 5 false ++ [true, true] ++ List.replicate 18 false ++ [true] := by decide
  have hhorner : act 0x4180001#27 r = advance 26 r ^^^ advance 20 r ^^^ advance 19 r ^^^ r := by
    rw [act, hcoeffs]
    simp [polyApply, nextReg_xor, advance_eq_iterate]
  rw [hhorner, advance_27]
  ac_rfl

/-- Shifting a 0 in at the end of a code drops its head. -/
theorem cons_regBits_shiftIn (c : Reg) : regBit c 0 :: regBits (shiftIn c false) = regBits c ++ [false] := by
  have hlast : regBit (shiftIn c false) 26 = false := regBit_shiftIn c false (by decide)
  have hinit : (List.range 26).map (regBit (shiftIn c false)) = (List.range 26).map (regBit c ∘ Nat.succ) := by
    refine List.map_congr_left fun p hp => ?_
    have hp' : p < 26 := List.mem_range.mp hp
    rw [regBit_shiftIn c false (by omega), if_neg (by omega)]
    rfl
  have hlow : regBits (shiftIn c false) = (List.range 26).map (regBit c ∘ Nat.succ) ++ [false] := by
    rw [regBits, List.range_succ, List.map_append, hinit, List.map_singleton, hlast]
  have hall : regBits c = regBit c 0 :: (List.range 26).map (regBit c ∘ Nat.succ) := by
    rw [regBits, List.range_succ_eq_map, List.map_cons, List.map_map]
  rw [hlow, hall, List.cons_append]

theorem act_mulX (c r : Reg) : act (mulX c) r = nextReg (act c r) := by
  have hlist : nextReg (act c r) = polyApply nextReg (regBit c 0 :: regBits (shiftIn c false)) r := by
    rw [cons_regBits_shiftIn, polyApply_append_singleton]
    exact (BitVec.xor_zero).symm
  rw [hlist, polyApply_cons nextReg_xor, length_regBits, ← advance_eq_iterate, ← act_reduction, BitVec.xor_comm]
  exact ((xorLinear_act r).map_xor _ _).trans (congrArg _ ((xorLinear_act r).map_ite _ _))

theorem act_mulCode (a b r : Reg) : act (mulCode a b) r = act a (act b r) :=
  map_polyApply (xorLinear_act r) (fun c => act_mulX c r) (regBits a) b

/-! ### The code of a number of steps -/

/-- The code of `x^n`, for `n < 2^k`, by squaring. -/
def powCode : Nat → Nat → Reg
  | 0, _ => 1#27
  | k + 1, n =>
    let root := powCode k (n / 2)
    if n % 2 = 1 then mulX (mulCode root root) else mulCode root root

/-- `n` steps are the action of `x^n`. -/
theorem act_powCode {k n : Nat} (hn : n < 2 ^ k) (r : Reg) : act (powCode k n) r = advance n r := by
  induction k generalizing n r with
  | zero =>
    obtain rfl : n = 0 := by omega
    exact act_one r
  | succ k ih =>
    have hhalf : n / 2 < 2 ^ k := by omega
    have hsquare : act (mulCode (powCode k (n / 2)) (powCode k (n / 2))) r = advance (n / 2 + n / 2) r := by
      rw [act_mulCode, ih hhalf, ih hhalf, advance_add]
    rw [powCode]
    split
    · have hodd : n = n / 2 + n / 2 + 1 := by omega
      rw [act_mulX, hsquare, ← advance_succ', ← hodd]
    · have heven : n = n / 2 + n / 2 := by omega
      rw [hsquare, ← heven]

end Sys2Proof.Proofs
end

section
/-!
PROOFS. Family 40_keystream_generator, O41. The period of every non-zero register divides `2^27 - 1 = 7 * 73 * 262657`,
and none of the three quotients by a prime is one, because `x^m + 1` has an inverse modulo the characteristic polynomial
(R44, the order of `x`). So the orbit has as many members as there are non-zero registers.
-/
namespace Sys2Proof.Proofs

open Sys2Proof Sys2Proof.Machine

/-! ### The order of x -/

/-- `x^(2^27 - 1) = 1`. -/
theorem powCode_period : powCode 27 (2 ^ 27 - 1) = 1#27 := by decide +kernel

theorem inverse_powCode_add_one_7 : mulCode 0x669A5ED#27 (powCode 27 19173961 ^^^ 1#27) = 1#27 := by decide +kernel

theorem inverse_powCode_add_one_73 : mulCode 0x7D5FCC5#27 (powCode 27 1838599 ^^^ 1#27) = 1#27 := by decide +kernel

theorem inverse_powCode_add_one_262657 : mulCode 0x1884154#27 (powCode 27 511 ^^^ 1#27) = 1#27 := by decide +kernel

/-- All registers are back after `2^27 - 1` steps. -/
theorem advance_period (r : Reg) : advance (2 ^ 27 - 1) r = r := by
  rw [← act_powCode (k := 27) (by decide), powCode_period, act_one]

theorem act_zero_reg (c : Reg) : act c 0#27 = 0#27 := by
  have hconst : Function.Semiconj (fun _ : Reg => 0#27) nextReg nextReg := fun _ => nextReg_zero.symm
  exact (map_polyApply (fun _ _ => (BitVec.xor_self).symm) hconst (regBits c) 0#27).symm

/-- Where `x^n + 1` has an inverse `u`, only the zero register is back after `n` steps. -/
theorem eq_zero_of_advance_eq {n : Nat} {u r : Reg} (hn : n < 2 ^ 27)
    (hinverse : mulCode u (powCode 27 n ^^^ 1#27) = 1#27) (hback : advance n r = r) : r = 0#27 := by
  have hsum : act (powCode 27 n ^^^ 1#27) r = act (powCode 27 n) r ^^^ act 1#27 r := xorLinear_act r _ _
  calc r = act (mulCode u (powCode 27 n ^^^ 1#27)) r := by rw [hinverse, act_one]
    _ = act u (advance n r ^^^ r) := by rw [act_mulCode, hsum, act_powCode hn, act_one]
    _ = 0#27 := by rw [hback, BitVec.xor_self, act_zero_reg]

/-- A proper divisor of `2^27 - 1 = 7 * 73 * 262657` divides one of the quotients by a prime. -/
theorem dvd_quotient_of_dvd_period {d : Nat} (hd : d ∣ 2 ^ 27 - 1) (hne : d ≠ 2 ^ 27 - 1) :
    d ∣ 19173961 ∨ d ∣ 1838599 ∨ d ∣ 511 := by
  obtain ⟨k, hk⟩ := hd
  have hk1 : k ≠ 1 := by
    rintro rfl
    omega
  obtain ⟨p, hp, m, rfl⟩ := Nat.exists_prime_and_dvd hk1
  have hfactor : d * m * p = 7 * 73 * 262657 := by
    rw [mul_assoc, mul_comm m p, ← hk]
    norm_num
  have hdvd : p ∣ 7 * 73 * 262657 := Dvd.intro_left _ hfactor
  have h7 : Nat.Prime 7 := by norm_num
  have h73 : Nat.Prime 73 := by norm_num
  have h262657 : Nat.Prime 262657 := by norm_num
  rw [hp.dvd_mul, hp.dvd_mul, Nat.prime_dvd_prime_iff_eq hp h7, Nat.prime_dvd_prime_iff_eq hp h73,
    Nat.prime_dvd_prime_iff_eq hp h262657] at hdvd
  obtain (rfl | rfl) | rfl := hdvd
  · exact .inl (Dvd.intro m (by omega))
  · exact .inr (.inl (Dvd.intro m (by omega)))
  · exact .inr (.inr (Dvd.intro m (by omega)))

/-! ### The one cycle -/

theorem isPeriodicPt_nextReg_iff {n : Nat} {r : Reg} : Function.IsPeriodicPt nextReg n r ↔ advance n r = r := by
  rw [advance_eq_iterate]
  rfl

theorem minimalPeriod_nextReg {r : Reg} (hr : r ≠ 0#27) : Function.minimalPeriod nextReg r = 2 ^ 27 - 1 := by
  by_contra hne
  have hdvd : Function.minimalPeriod nextReg r ∣ 2 ^ 27 - 1 :=
    (isPeriodicPt_nextReg_iff.mpr (advance_period r)).minimalPeriod_dvd
  have hback {n : Nat} (h : Function.minimalPeriod nextReg r ∣ n) : advance n r = r :=
    isPeriodicPt_nextReg_iff.mp (Function.isPeriodicPt_iff_minimalPeriod_dvd.mpr h)
  obtain h | h | h := dvd_quotient_of_dvd_period hdvd hne
  · exact hr (eq_zero_of_advance_eq (by decide) inverse_powCode_add_one_7 (hback h))
  · exact hr (eq_zero_of_advance_eq (by decide) inverse_powCode_add_one_73 (hback h))
  · exact hr (eq_zero_of_advance_eq (by decide) inverse_powCode_add_one_262657 (hback h))

/-- The registers that `a` reaches in less than `2^27 - 1` steps. -/
def orbit (a : Reg) : Set Reg := (nextReg^[·] a) '' Set.Iio (2 ^ 27 - 1)

theorem ncard_orbit {a : Reg} (ha : a ≠ 0#27) : (orbit a).ncard = 2 ^ 27 - 1 := by
  have hinj := Function.iterate_injOn_Iio_minimalPeriod (f := nextReg) (x := a)
  rw [minimalPeriod_nextReg ha] at hinj
  rw [orbit, hinj.ncard_image, Set.ncard_Iio_nat]

theorem ncard_nonzero : ({0#27}ᶜ : Set Reg).ncard = 2 ^ 27 - 1 := by
  rw [Set.ncard_compl, natCard_bitVec, Set.ncard_singleton]

theorem orbit_eq_nonzero {a : Reg} (ha : a ≠ 0#27) : orbit a = {0#27}ᶜ := by
  refine Set.eq_of_subset_of_ncard_le ?_ (by rw [ncard_orbit ha, ncard_nonzero])
  rintro _ ⟨n, -, rfl⟩
  have hne : nextReg^[n] a ≠ 0#27 := advance_eq_iterate n a ▸ advance_ne_zero ha n
  exact hne

/-- Settles O41: the least period is `2^27 - 1`, and the orbit of one non-zero register holds them all. -/
theorem maximalPeriod : Obligations.MaximalPeriod := by
  constructor
  · refine fun r hr => ⟨advance_period r, fun n hpos hlt hback => ?_⟩
    have hle := (isPeriodicPt_nextReg_iff.mpr hback).minimalPeriod_le hpos
    rw [minimalPeriod_nextReg hr] at hle
    omega
  · intro a b ha hb
    have hmem : b ∈ orbit a := by
      rw [orbit_eq_nonzero ha]
      exact hb
    obtain ⟨n, -, hn⟩ := hmem
    exact ⟨n, (advance_eq_iterate n a).trans hn⟩

end Sys2Proof.Proofs
end

section
/-!
PROOFS. Family 40_keystream_generator, O25, O26 and O27. The commands LOAD, STEP and DROP: the words near theirs that
are illegal, their responses as the words of R30, and a run of STEPs after a LOAD.
-/
namespace Sys2Proof.Proofs

open Sys2Proof Sys2Proof.Machine Sys2Proof.Safety

/-! ### Words and responses -/

/-- An opcode of format Z is illegal with any other bit set (R32(b), (c)). -/
theorem decode_rejects_of_formatZ {w : CmdWord} {i : Instr} (hformat : w.getLsbD 27 = false → decode w = decodeZ i w)
    (hbits : w.extractLsb' 0 28 ≠ 0#28) : ∃ e, decode w = .error e := by
  cases h27 : w.getLsbD 27
  case true => exact ⟨_, decode_of_bit27 h27⟩
  case false =>
    rw [hformat h27, decodeZ_rejects_iff]
    intro hzero
    have hfields : w.extractLsb' 27 1 ++ fieldSeed w = w.extractLsb' 0 28 :=
      BitVec.extractLsb'_append_extractLsb'_eq_extractLsb' rfl
    rw [(bit27_eq_false_iff w).mp h27, hzero] at hfields
    exact hbits hfields.symm

theorem respond_ok (d : Byte) (s : State) : respond .ok d s = answered (d.setWidth 16) s := by
  rw [← responseWord_ok]
  rfl

theorem setWidth_bitData (k : Bool) : (bitData k).setWidth 16 = bitWord k := by
  cases k <;> rfl

/-! ### The three commands -/

theorem exec_load (seed : Reg) (s : State) :
    exec (.load seed) s = .next (answered 0x0000 { s with r := seed, loaded := true }) := rfl

theorem exec_step_of_loaded {s : State} (h : s.loaded = true) :
    exec .step s = .next (answered (bitWord (regBit s.r 0)) { s with r := (lfsrStep s.r).2 }) := by
  obtain ⟨-, hexec⟩ | ⟨hunloaded, -⟩ := execStep_cases s
  · rw [respond_ok, setWidth_bitData] at hexec
    exact hexec
  · simp [h] at hunloaded

/-- STEP on a register whose keystream step is known. -/
theorem exec_step_of_lfsrStep {s : State} (h : s.loaded = true) {r r' : Reg} {k : Bool} (hstep : lfsrStep r = (k, r')) :
    exec .step { s with r := r } = .next (answered (bitWord k) { s with r := r' }) := by
  obtain ⟨rfl, rfl⟩ := Prod.ext_iff.mp hstep
  exact exec_step_of_loaded (s := { s with r := r }) h

theorem exec_step_of_unloaded {s : State} (h : s.loaded = false) : exec .step s = .next (answered 0x0200 s) := by
  obtain ⟨hloaded, -⟩ | ⟨-, hexec⟩ := execStep_cases s
  · simp [h] at hloaded
  · exact hexec

theorem exec_xorl_of_unloaded {d : Byte} {nv : Cover} {s : State} (hpos : 1 ≤ nv.toNat) (hcover : nv.toNat ≤ 8)
    (h : s.loaded = false) : exec (.xorl d nv) s = .next (answered 0x0200 s) := by
  obtain ⟨hzero | hloaded, -⟩ | ⟨-, -, hexec⟩ := execXorl_cases d nv s ((coverLegal_eq_true_iff nv).mpr hcover)
  · omega
  · simp [h] at hloaded
  · exact hexec

theorem exec_drop (s : State) : exec .drop s = .next (answered 0x0000 (discardReg s)) := rfl

/-! ### Runs of presented commands -/

/-- The command at the front of a presented program is the one the next step performs. -/
theorem step_presentAll_cons {i : Instr} (hwf : i.wellFormed = true) (is : List Instr) (s : State) :
    step (presentAll (i :: is) s) = exec i (presentAll is s) :=
  step_of_command rfl (decodeOfEncode i hwf)

/-- `n` STEPs of a loaded block return the next `n` keystream bits and move the register on by `n` steps (R41). -/
theorem reaches_steps (n : Nat) {s : State} (h : s.loaded = true) :
    Reaches n (presentAll (List.replicate n .step) s)
      { s with r := advance n s.r, responses := s.responses ++ (generate s.r n).map bitWord } := by
  induction n generalizing s with
  | zero =>
    have hend : s = { s with r := advance 0 s.r, responses := s.responses ++ (generate s.r 0).map bitWord } :=
      state_ext rfl rfl rfl rfl (List.append_nil s.responses).symm
    exact congrArg Host.Outcome.next hend
  | succ n ih =>
    have hfirst : step (presentAll (List.replicate (n + 1) .step) s) = .next (presentAll (List.replicate n .step)
        (answered (bitWord (regBit s.r 0)) { s with r := nextReg s.r })) :=
      (step_presentAll_cons rfl _ s).trans (exec_step_of_loaded h)
    have hrest := ih (s := answered (bitWord (regBit s.r 0)) { s with r := nextReg s.r }) h
    have hbits : (answered (bitWord (regBit s.r 0)) { s with r := nextReg s.r }).responses ++
        (generate (nextReg s.r) n).map bitWord = s.responses ++ (generate s.r (n + 1)).map bitWord := by
      rw [generate_succ, List.map_cons]
      exact List.append_assoc ..
    rw [← hbits]
    exact reaches_succ hfirst hrest

/-- A LOAD and `n` STEPs return the first `n` keystream bits of the seed (R60). -/
theorem reaches_generateProgram (seed : Reg) (n : Nat) (s : State) :
    Reaches (n + 1) (presentAll (generateProgram seed n) s)
      { s with r := advance n seed, loaded := true,
               responses := s.responses ++ 0x0000 :: (generate seed n).map bitWord } := by
  have hload : step (presentAll (generateProgram seed n) s) = .next (presentAll (List.replicate n .step)
      (answered 0x0000 { s with r := seed, loaded := true })) :=
    step_presentAll_cons rfl _ s
  have hsteps := reaches_steps n (s := answered 0x0000 { s with r := seed, loaded := true }) rfl
  rw [← List.singleton_append, ← List.append_assoc]
  exact reaches_succ hload hsteps

/-- Settles O25, by the decoder's LOAD row and LOAD's meaning. -/
theorem loadWritesSeed : Obligations.LoadWritesSeed := by
  refine ⟨fun _ => rfl, fun w hop => ⟨fun h27 => ⟨_, decode_of_bit27 h27⟩, fun h27 => ?_⟩, exec_load, ?_,
    by decide⟩
  · exact ⟨fieldSeed w, decode_of_op_load h27 hop, fun p hp => regBit_fieldSeed w hp⟩
  · rintro seed s _ _ ⟨⟩ ⟨⟩
    exact ⟨rfl, rfl⟩

/-- Settles O26, by STEP's two cases and the run of 27 STEPs, whose bits are the seed (R43(a)). -/
theorem stepEmitsHead : Obligations.StepEmitsHead := by
  refine ⟨by decide, fun w hop => decode_rejects_of_formatZ fun h27 => decode_of_op_step h27 hop,
    fun _ => exec_step_of_loaded, fun _ => exec_step_of_unloaded, fun seed s => ?_, fun s h => ?_⟩
  · have hrun := reaches_generateProgram seed 27 s
    rw [generate_27, regBits, List.map_map] at hrun
    exact hrun
  · have hone : lfsrStep 0x5555555 = (true, 0x2AAAAAB) := by decide
    have hzero : lfsrStep 0x2AAAAAB = (false, 0x5555556) := by decide
    exact ⟨exec_step_of_lfsrStep h hone, exec_step_of_lfsrStep h hzero⟩

/-- Settles O27, by DROP's meaning and the NOT_LOADED cases of STEP and XORL. -/
theorem dropDiscardsRegister : Obligations.DropDiscardsRegister := by
  refine ⟨by decide, fun w hop => decode_rejects_of_formatZ fun h27 => decode_of_op_drop h27 hop,
    fun s => ⟨Config.unspecifiedReg s.draws s.r, exec_drop s⟩, ?_, ?_⟩
  · rintro s _ ⟨⟩
    exact ⟨exec_step_of_unloaded rfl, fun d nv hpos hcover => exec_xorl_of_unloaded hpos hcover rfl⟩
  · rintro s _ hunloaded ⟨⟩
    exact ⟨hunloaded.symm, fun hloaded => absurd hloaded Bool.false_ne_true, rfl, rfl⟩

end Sys2Proof.Proofs
end

section
/-!
PROOFS. Family 41_xor_cipher, O44, O45, O46, O47 and O48. The functions: the XOR cell, the bytes of `transform` and of
`xor_byte` bit by bit, and the bytes of a buffer.
-/
namespace Sys2Proof.Proofs

open Sys2Proof Sys2Proof.Machine

/-! ### The XOR cell and the cover count -/

/-- The XOR cell meets the key bit where the cover bit is 1 (R45). -/
theorem xorCell_decide (d k : Bool) (p : Prop) [Decidable p] :
    xorCell d k (decide p) = if p then Bool.xor d k else d := by
  by_cases hp : p <;> simp [xorCell, hp]

/-- The cover count of a byte counts its bit positions within the keystream (R47, R48). -/
theorem keyIndex_lt_iff (i L : Nat) {j : Nat} (hj : j < 8) : keyIndex i j < L ↔ j < coverCount i L := by
  unfold keyIndex coverCount
  omega

theorem coverCount_of_covered {i L : Nat} (h : 8 * i + 8 ≤ L) : coverCount i L = 8 := by
  unfold coverCount
  omega

theorem coverCount_of_ends_inside {i L : Nat} (hstart : 8 * i ≤ L) (hend : L < 8 * i + 8) :
    coverCount i L = L % 8 := by
  unfold coverCount
  omega

theorem coverCount_of_beyond {i L : Nat} (h : L ≤ 8 * i) : coverCount i L = 0 := by
  unfold coverCount
  omega

/-- Settles O47: the byte is covered whole, holds the keystream's end, or lies beyond it. -/
theorem coverCountValues : Obligations.CoverCountValues :=
  ⟨fun _ _ => ⟨coverCount_of_covered, coverCount_of_ends_inside, coverCount_of_beyond, Nat.min_le_left ..⟩,
    fun _ _ _ hlong hi => coverCount_of_covered (by omega)⟩

/-! ### One byte -/

theorem byteBit_xorByte_ite (d : Byte) (kb : Bits) (nv : Nat) {j : Nat} (hj : j < 8) :
    byteBit (xorByte d kb nv) j = if j < nv then Bool.xor (byteBit d j) (kb.getD j false) else byteBit d j := by
  rw [byteBit_xorByte _ _ _ hj, xorCell_decide]

theorem getD_take_of_lt (ks : Bits) {g n : Nat} (hg : g < n) : (ks.take n).getD g false = ks.getD g false := by
  rw [List.getD_eq_getElem?_getD, List.getD_eq_getElem?_getD, List.getElem?_take_of_lt hg]

/-- Of its key bits `xor_byte` reads the first `nv` only (R49). -/
theorem xorByte_take (d : Byte) (kb : Bits) (nv : Nat) : xorByte d (kb.take nv) nv = xorByte d kb nv := by
  refine byte_ext fun j hj => ?_
  rw [byteBit_xorByte_ite _ _ _ hj, byteBit_xorByte_ite _ _ _ hj]
  split
  case isTrue hcovered => rw [getD_take_of_lt kb hcovered]
  case isFalse => rfl

@[simp] theorem byteBit_xor (a b : Byte) (j : Nat) : byteBit (a ^^^ b) j = Bool.xor (byteBit a j) (byteBit b j) :=
  BitVec.getMsbD_xor

/-- `xor_byte` as one XOR of bytes: the key bits in the leading positions, zeros after them (R49). -/
theorem xorByte_eq_xor (d : Byte) (kb : Bits) (nv : Nat) :
    xorByte d kb nv = d ^^^ byteOf fun j => if j < nv then kb.getD j false else false := by
  refine byte_ext fun j hj => ?_
  rw [byteBit_xorByte_ite _ _ _ hj]
  split <;> simp [*]

theorem byteBit_transformByte_ite (ks : Bits) (i : Nat) (b : Byte) {j : Nat} (hj : j < 8) :
    byteBit (transformByte ks i b) j =
      if keyIndex i j < ks.length then Bool.xor (byteBit b j) (ks.getD (keyIndex i j) false) else byteBit b j := by
  rw [byteBit_transformByte _ _ _ hj, xorCell_decide]

/-- Passing through is XOR with 0, so `transform` acts as if zeros followed the keystream for ever. -/
theorem byteBit_transformByte_eq_xor (ks : Bits) (i : Nat) (b : Byte) {j : Nat} (hj : j < 8) :
    byteBit (transformByte ks i b) j = Bool.xor (byteBit b j) (ks.getD (keyIndex i j) false) := by
  rw [byteBit_transformByte_ite _ _ _ hj, ite_eq_left_iff]
  intro hbeyond
  rw [List.getD_eq_default _ _ (Nat.not_lt.mp hbeyond), Bool.xor_false]

/-- A byte of `transform` is `xor_byte` of its data byte with the keystream from its first bit on (R49). -/
theorem transformByte_eq_xorByte (ks : Bits) (i : Nat) (b : Byte) :
    transformByte ks i b =
      xorByte b ((ks.drop (8 * i)).take (coverCount i ks.length)) (coverCount i ks.length) := by
  rw [xorByte_take]
  refine byte_ext fun j hj => ?_
  have hkey : (ks.drop (8 * i)).getD j false = ks.getD (keyIndex i j) false := by simp [keyIndex]
  rw [byteBit_transformByte_ite _ _ _ hj, byteBit_xorByte_ite _ _ _ hj, hkey]
  simp only [keyIndex_lt_iff _ _ hj]

/-- Settles O48, by the forms of `xor_byte` and of a byte of `transform`. -/
theorem xorByteForms : Obligations.XorByteForms := by
  refine ⟨fun d kb nv _ => ⟨fun j hj => byteBit_xorByte_ite d kb nv hj, xorByte_eq_xor d kb nv⟩, ?_⟩
  intro data ks i b hb
  rw [getElem?_transform, hb, Option.map_some, transformByte_eq_xorByte]

/-- A byte of `transform` depends on its own eight keystream bits only (R52(d)). -/
theorem transformByte_congr {ks ks' : Bits} {i : Nat}
    (h : ∀ j < 8, ks.getD (keyIndex i j) false = ks'.getD (keyIndex i j) false) :
    transformByte ks i = transformByte ks' i :=
  funext fun b => byte_ext fun j hj => by
    rw [byteBit_transformByte_eq_xor _ _ _ hj, byteBit_transformByte_eq_xor _ _ _ hj, h j hj]

theorem transformByte_of_zeros {ks : Bits} {i : Nat} (h : ∀ j < 8, ks.getD (keyIndex i j) false = false) (b : Byte) :
    transformByte ks i b = b :=
  byte_ext fun j hj => by rw [byteBit_transformByte_eq_xor _ _ _ hj, h j hj, Bool.xor_false]

theorem transformByte_involutive (ks : Bits) (i : Nat) : Function.Involutive (transformByte ks i) :=
  fun b => byte_ext fun j hj => by
    rw [byteBit_transformByte_eq_xor _ _ _ hj, byteBit_transformByte_eq_xor _ _ _ hj, Bool.xor_assoc, Bool.xor_self,
      Bool.xor_false]

/-! ### A buffer -/

theorem transform_congr {data : List Byte} {ks ks' : Bits}
    (h : ∀ g < 8 * data.length, ks.getD g false = ks'.getD g false) : transform data ks = transform data ks' := by
  refine List.ext_getElem? fun i => ?_
  rw [getElem?_transform, getElem?_transform]
  by_cases hi : i < data.length
  · rw [transformByte_congr fun j hj => h _ (by unfold keyIndex; omega)]
  · rw [List.getElem?_eq_none (Nat.not_lt.mp hi), Option.map_none, Option.map_none]

theorem transform_of_zeros (data : List Byte) {ks : Bits} (h : ∀ g, ks.getD g false = false) :
    transform data ks = data := by
  refine List.ext_getElem? fun i => ?_
  rw [getElem?_transform, funext (transformByte_of_zeros fun j _ => h (keyIndex i j)), Option.map_id']

theorem transform_transform (data : List Byte) (ks : Bits) : transform (transform data ks) ks = data := by
  refine List.ext_getElem? fun i => ?_
  rw [getElem?_transform, getElem?_transform, Option.map_map, (transformByte_involutive ks i).comp_self,
    Option.map_id_apply]

/-- Settles O46: what holds of a keystream extended by zeros, byte by byte. -/
theorem transformProperties : Obligations.TransformProperties := by
  refine ⟨fun data ks => transform_congr fun g hg => (getD_take_of_lt ks hg).symm, transform_transform, fun _ => rfl,
    fun data => transform_of_zeros data fun _ => rfl, fun data z hz => transform_of_zeros data fun g => ?_, ?_⟩
  · by_cases hg : g < z.length
    · rw [List.getD_eq_getElem _ _ hg]
      exact hz _ (List.getElem_mem hg)
    · exact List.getD_eq_default _ _ (Nat.not_lt.mp hg)
  · intro data data' ks ks' i hdata hks
    have hbits : ∀ j < 8, ks.getD (keyIndex i j) false = ks'.getD (keyIndex i j) false := fun j hj => by
      rw [List.getD_eq_getElem?_getD, List.getD_eq_getElem?_getD, keyIndex, hks j hj]
    rw [getElem?_transform, getElem?_transform, hdata, transformByte_congr hbits]

theorem getD_transform {data : List Byte} {i : Nat} (hi : i < data.length) (ks : Bits) :
    (transform data ks).getD i 0 = transformByte ks i (data.getD i 0) := by
  rw [List.getD_eq_getElem?_getD, getElem?_transform, List.getD_eq_getElem _ _ hi, List.getElem?_eq_getElem hi]
  rfl

/-- Settles O45: no bit of a byte beyond the keystream is met, and the first `L mod 8` bits of the byte it ends
inside are. -/
theorem shortKeystreamPassesThrough : Obligations.ShortKeystreamPassesThrough := by
  intro data ks i hi
  constructor
  · intro hbeyond
    have hzeros : ∀ j < 8, ks.getD (keyIndex i j) false = false := fun j _ =>
      List.getD_eq_default _ _ (by unfold keyIndex; omega)
    rw [getElem?_transform, funext (transformByte_of_zeros hzeros), Option.map_id']
  · intro hstart hend j hj
    have hwithin : keyIndex i j < ks.length ↔ j < ks.length % 8 := by
      rw [keyIndex_lt_iff _ _ hj, coverCount_of_ends_inside hstart hend]
    rw [getD_transform hi, byteBit_transformByte_ite _ _ _ hj]
    simp only [hwithin]
    rfl

/-- Bit `j` of byte `i` stands at the global index of R19 in the bits of a buffer. -/
theorem getD_bitsOf (data : List Byte) (i : Nat) {j : Nat} (hj : j < 8) :
    (bitsOf data).getD (keyIndex i j) false = byteBit (data.getD i 0) j := by
  induction data generalizing i with
  | nil => simp [bitsOf, byteBit]
  | cons b rest ih =>
    have hcons : bitsOf (b :: rest) = byteBits b ++ bitsOf rest := rfl
    cases i with
    | zero =>
      have hin : keyIndex 0 j < (byteBits b).length := by simpa [keyIndex] using hj
      rw [hcons, List.getD_append _ _ _ _ hin, keyIndex, Nat.mul_zero, Nat.zero_add, getD_byteBits b hj]
      rfl
    | succ i =>
      have hnext : keyIndex (i + 1) j = keyIndex i j + (byteBits b).length := by
        rw [length_byteBits, keyIndex, keyIndex]
        omega
      rw [hcons, hnext, List.getD_append_right _ _ _ _ (Nat.le_add_left ..), Nat.add_sub_cancel, ih]
      rfl

theorem keyIndex_div_mod (g : Nat) : keyIndex (g / 8) (g % 8) = g := Nat.div_add_mod g 8

/-- Settles O44: bit `g` is bit `g mod 8` of byte `g / 8`. -/
theorem transformBits : Obligations.TransformBits := by
  refine ⟨fun data ks => ⟨length_transform data ks, fun g hg => ?_⟩, by decide⟩
  have hbyte : g / 8 < data.length := by omega
  have hbit : g % 8 < 8 := Nat.mod_lt g (by decide)
  have hresult := getD_bitsOf (transform data ks) (g / 8) hbit
  have hdata := getD_bitsOf data (g / 8) hbit
  rw [getD_transform hbyte, byteBit_transformByte_ite _ _ _ hbit, ← hdata] at hresult
  simpa only [keyIndex_div_mod] using hresult

end Sys2Proof.Proofs
end

section
/-!
PROOFS. Family 41_xor_cipher, O28 and O29. The commands XORL and XORK: their words and the illegal words near them, and
what they do with a legal cover count.
-/
namespace Sys2Proof.Proofs

open Sys2Proof Sys2Proof.Machine Sys2Proof.Safety

/-! ### Words -/

/-- In formats B and K bit 27 and bits 26 to 20 are eight zeros in a row (R28). -/
theorem append_operands_eq (op : BitVec 4) (nv : Cover) (k d : Byte) :
    op ++ 0#1 ++ (0#7 ++ nv ++ k ++ d) = op ++ 0#8 ++ nv ++ k ++ d := by
  apply BitVec.eq_of_toNat_eq
  simp only [BitVec.toNat_append]
  simp [Nat.shiftLeft_or_distrib, ← Nat.shiftLeft_add, Nat.or_assoc]

theorem encode_xorl (d : Byte) (nv : Cover) : encode (.xorl d nv) = 0x3#4 ++ 0#8 ++ nv ++ 0#8 ++ d :=
  append_operands_eq 0x3#4 nv 0#8 d

theorem encode_xork (d k : Byte) (nv : Cover) : encode (.xork d k nv) = 0x4#4 ++ 0#8 ++ nv ++ k ++ d :=
  append_operands_eq 0x4#4 nv k d

/-- The illegal words of opcode 3 (R32(b), (d), (f)). -/
theorem decode_rejects_iff_of_op_xorl {w : CmdWord} (hop : fieldOp w = 0x3#4) :
    (∃ e, decode w = .error e) ↔
      w.getLsbD 27 = true ∨ fieldHigh w ≠ 0#7 ∨ fieldK w ≠ 0#8 ∨ 9 ≤ (fieldNv w).toNat := by
  cases h27 : w.getLsbD 27
  case true => simp [decode_of_bit27 h27]
  case false => simp [decode_of_op_xorl h27 hop, decodeB_rejects_iff, or_assoc]

/-- The illegal words of opcode 4 (R32(b), (e), (f)). -/
theorem decode_rejects_iff_of_op_xork {w : CmdWord} (hop : fieldOp w = 0x4#4) :
    (∃ e, decode w = .error e) ↔ w.getLsbD 27 = true ∨ fieldHigh w ≠ 0#7 ∨ 9 ≤ (fieldNv w).toNat := by
  cases h27 : w.getLsbD 27
  case true => simp [decode_of_bit27 h27]
  case false => simp [decode_of_op_xork h27 hop, decodeK_rejects_iff]

/-! ### XORL -/

/-- XORL with a legal cover count, where it takes no keystream bit or the block is loaded (R51). -/
theorem exec_xorl_of_passes {d : Byte} {nv : Cover} {s : State} (hcover : nv.toNat ≤ 8)
    (h : nv.toNat = 0 ∨ s.loaded = true) :
    exec (.xorl d nv) s = .next (answered ((xorByte d (generate s.r nv.toNat) nv.toNat).setWidth 16)
      { s with r := advance nv.toNat s.r }) := by
  obtain ⟨-, hexec⟩ | ⟨hpos, hunloaded, -⟩ := execXorl_cases d nv s ((coverLegal_eq_true_iff nv).mpr hcover)
  · rw [respond_ok] at hexec
    exact hexec
  · obtain hzero | hloaded := h
    · omega
    · simp [hunloaded] at hloaded

/-- No key bit: every data bit passes through (R49). -/
theorem xorByte_zero_cover (d : Byte) (kb : Bits) : xorByte d kb 0 = d :=
  byte_ext fun _ hj => byteBit_xorByte_ite d kb 0 hj

theorem exec_xorl_zero (d : Byte) (s : State) : exec (.xorl d 0) s = .next (answered (d.setWidth 16) s) := by
  have hbyte : xorByte d (generate s.r (0 : Cover).toNat) (0 : Cover).toNat = d := xorByte_zero_cover d _
  have hexec := exec_xorl_of_passes (d := d) (nv := 0) (s := s) (by decide) (.inl rfl)
  rwa [hbyte] at hexec

/-- Settles O28, by XORL's two cases; its key bits and the register it leaves are those of as many STEPs. -/
theorem xorlCiphersByte : Obligations.XorlCiphersByte := by
  refine ⟨encode_xorl, fun w => decode_rejects_iff_of_op_xorl, fun d nv s hcover h => ?_,
    fun d nv s => exec_xorl_of_unloaded, exec_xorl_zero, fun nv s hcover hloaded => ?_, fun n s => reaches_steps n,
    by decide, fun s hloaded => ?_⟩
  · exact ⟨_, fun j hj => byteBit_xorByte_ite d _ _ hj, exec_xorl_of_passes hcover h⟩
  · refine ⟨_, fun j hj => ?_, exec_xorl_of_passes hcover (.inr hloaded)⟩
    have hzero : byteBit 0x00 j = false := by simp [byteBit]
    rw [byteBit_xorByte _ _ _ hj, hzero, xorCell, Bool.false_xor]
  · have hresult : xorByte 0x48 (generate 0x5555555 8) 8 = 0xE2 := by decide
    have hreg : advance 8 0x5555555 = 0x5555598 := by decide
    have hexec := exec_xorl_of_passes (d := 0x48) (nv := 8) (s := { s with r := 0x5555555 }) (by decide) (.inr hloaded)
    simp only [BitVec.reduceToNat, hresult, hreg] at hexec
    exact hexec

/-! ### XORK -/

@[simp] theorem byteBit_and (a b : Byte) (j : Nat) : byteBit (a &&& b) j = (byteBit a j && byteBit b j) :=
  BitVec.getMsbD_and

/-- The mask has ones in its first `nv` bit positions (R50). -/
theorem byteBit_coverMask {nv : Nat} (hnv : nv ≤ 8) (j : Nat) : byteBit (coverMask nv) j = decide (j < nv) := by
  have hones : ∀ p, byteBit 0xFF#8 p = decide (p < 8) := fun p => BitVec.getMsbD_allOnes
  have hshift : byteBit (coverMask nv) j = byteBit 0xFF#8 (j + (8 - nv)) := BitVec.getMsbD_shiftLeft ..
  rw [hshift, hones, decide_eq_decide]
  omega

/-- XORK's byte as one XOR with the masked key byte (R50). -/
theorem xorByte_take_byteBits (d k : Byte) {nv : Nat} (hnv : nv ≤ 8) :
    xorByte d ((byteBits k).take nv) nv = d ^^^ (k &&& coverMask nv) := by
  rw [xorByte_take]
  refine byte_ext fun j hj => ?_
  rw [byteBit_xorByte_ite _ _ _ hj, getD_byteBits k hj, byteBit_xor, byteBit_and, byteBit_coverMask hnv]
  split <;> simp [*]

theorem exec_xork {d k : Byte} {nv : Cover} {s : State} (hcover : nv.toNat ≤ 8) :
    exec (.xork d k nv) s = .next (answered ((d ^^^ (k &&& coverMask nv.toNat)).setWidth 16) s) := by
  rw [← xorByte_take_byteBits d k hcover, ← respond_ok]
  exact execXork_eq d k nv s ((coverLegal_eq_true_iff nv).mpr hcover)

/-- Key bits beyond the cover do not matter (R50). -/
theorem and_coverMask_congr {k k' : Byte} {nv : Nat} (hnv : nv ≤ 8) (h : ∀ j < nv, byteBit k j = byteBit k' j) :
    k &&& coverMask nv = k' &&& coverMask nv := by
  refine byte_ext fun j hj => ?_
  rw [byteBit_and, byteBit_and, byteBit_coverMask hnv]
  by_cases hcovered : j < nv
  · rw [h j hcovered]
  · rw [decide_eq_false hcovered, Bool.and_false, Bool.and_false]

/-- XORK reads only the key bits that its cover count covers; a term outside the encoding reads none (log entry 9). -/
theorem exec_xork_congr {d k k' : Byte} {nv : Cover} {s : State} (h : ∀ j < nv.toNat, byteBit k j = byteBit k' j) :
    exec (.xork d k nv) s = exec (.xork d k' nv) s := by
  by_cases hcover : nv.toNat ≤ 8
  case pos => rw [exec_xork hcover, exec_xork hcover, and_coverMask_congr hcover h]
  case neg =>
    have hillegal : coverLegal nv = false := (coverLegal_eq_false_iff nv).mpr (Nat.not_le.mp hcover)
    exact (exec_cover_illegal d k nv s hillegal).2.trans (exec_cover_illegal d k' nv s hillegal).2.symm

/-- Settles O29: the corner cases and the examples are values of the one XOR that XORK is. -/
theorem xorkCiphersByte : Obligations.XorkCiphersByte := by
  refine ⟨encode_xork, fun w => decode_rejects_iff_of_op_xork, fun d k nv s => exec_xork, by decide,
    fun d k k' nv s => exec_xork_congr, fun d k s => ?_, fun d nv s hcover => ?_, fun k s => ?_, by decide, by decide,
    fun s => ⟨exec_xork (by decide), exec_xork (by decide)⟩⟩
  · have hmask : coverMask 0 = 0#8 := by decide
    simp [exec_xork, hmask]
  · simp [exec_xork hcover]
  · have hmask : coverMask (8 : Cover).toNat = BitVec.allOnes 8 := by decide
    rw [exec_xork (by decide), hmask, BitVec.and_allOnes]
    simp

end Sys2Proof.Proofs
end

section
/-!
PROOFS. Family 42_composition_and_idle, O22 and O24. What a command does is a function of `R`, `LOADED` and the draw
counter alone: the host's script and the earlier responses only pass it by. So a run of presented commands is a chain
of their meanings.
-/
namespace Sys2Proof.Proofs

open Sys2Proof Sys2Proof.Machine Sys2Proof.Safety

/-! ### A command does not look at the port -/

/-- The same block with another script still to come and other responses given. -/
def withPort (inc : List HostEvent) (resp : List RspWord) (s : State) : State :=
  { s with incoming := inc, responses := resp }

/-- What `go` makes of the block and its one response are the same whatever stands at the port (R24, R56). -/
def PortBlind (s : State) (go : State → Result) : Prop :=
  ∃ (v : Reg) (l : Bool) (c : Nat) (q : RspWord), ∀ inc resp,
    go (withPort inc resp s) = .next (answered q { withPort inc resp s with r := v, loaded := l, draws := c })

theorem raiseError_portBlind (e : BlockError) (s : State) : PortBlind s (raiseError e) :=
  ⟨s.r, s.loaded, s.draws, _, fun inc resp => raiseError_eq e (withPort inc resp s)⟩

theorem requireCover_portBlind (nv : Cover) {s : State} {go : State → Result} (hgo : PortBlind s go) :
    PortBlind s (requireCover nv · go) := by
  unfold requireCover
  split
  · exact hgo
  · exact raiseError_portBlind .illegalCommand s

theorem requireLoaded_portBlind (bits : Nat) {s : State} {go : State → Result} (hgo : PortBlind s go) :
    PortBlind s (requireLoaded bits · go) := by
  by_cases hraise : 1 ≤ bits ∧ s.loaded = false
  · obtain ⟨v, l, c, q, h⟩ := raiseError_portBlind .notLoaded s
    exact ⟨v, l, c, q, fun inc resp => (if_pos hraise).trans (h inc resp)⟩
  · obtain ⟨v, l, c, q, h⟩ := hgo
    exact ⟨v, l, c, q, fun inc resp => (if_neg hraise).trans (h inc resp)⟩

theorem exec_portBlind (i : Instr) (s : State) : PortBlind s (exec i) := by
  cases i with
  | nop => exact ⟨s.r, s.loaded, s.draws, _, fun _ _ => finish_eq _ _⟩
  | load seed => exact ⟨seed, true, s.draws, _, fun _ _ => execLoad_eq _ _⟩
  | step =>
    exact requireLoaded_portBlind 1 ⟨(lfsrStep s.r).2, s.loaded, s.draws,
      responseWord .ok (bitData (lfsrStep s.r).1), fun _ _ => rfl⟩
  | xorl d nv =>
    exact requireCover_portBlind nv (requireLoaded_portBlind nv.toNat
      ⟨(keystream nv.toNat s.r).2, s.loaded, s.draws,
        responseWord .ok (xorByte d (keystream nv.toNat s.r).1 nv.toNat), fun _ _ => rfl⟩)
  | xork d k nv => exact requireCover_portBlind nv ⟨s.r, s.loaded, s.draws, _, fun _ _ => finish_eq _ _⟩
  | drop => exact ⟨Config.unspecifiedReg s.draws s.r, false, s.draws + 1, _, fun _ _ => execDrop_eq _⟩

/-! ### Earlier responses -/

/-- The state with the responses `qs` given before its own. -/
def withEarlier (qs : List RspWord) (s : State) : State := { s with responses := qs ++ s.responses }

theorem respond_withEarlier (qs : List RspWord) (st : Status) (d : Byte) (s : State) :
    respond st d (withEarlier qs s) = withEarlier qs (respond st d s) :=
  state_ext rfl rfl rfl rfl (List.append_assoc ..)

theorem exec_withEarlier (qs : List RspWord) (i : Instr) (s : State) :
    ∃ t, exec i s = .next t ∧ exec i (withEarlier qs s) = .next (withEarlier qs t) := by
  obtain ⟨v, l, c, q, h⟩ := exec_portBlind i s
  refine ⟨_, h s.incoming s.responses, (h s.incoming (qs ++ s.responses)).trans (congrArg _ ?_)⟩
  exact state_ext rfl rfl rfl rfl (List.append_assoc ..)

theorem step_withEarlier (qs : List RspWord) (s : State) :
    ∃ t, step s = .next t ∧ step (withEarlier qs s) = .next (withEarlier qs t) := by
  cases hin : s.incoming with
  | nil => exact ⟨s, step_of_idle hin, step_of_idle hin⟩
  | cons event rest =>
    cases event with
    | reset => exact ⟨_, step_of_reset hin, step_of_reset hin⟩
    | command w =>
      have hin' : (withEarlier qs s).incoming = .command w :: rest := hin
      cases hw : decode w with
      | error e =>
        refine ⟨_, step_of_illegal hin hw, (step_of_illegal hin' hw).trans (congrArg Host.Outcome.next ?_)⟩
        exact respond_withEarlier qs .illegalCommand 0 { s with incoming := rest }
      | ok i =>
        obtain ⟨t, hexec, hexec'⟩ := exec_withEarlier qs i { s with incoming := rest }
        exact ⟨t, (step_of_command hin hw).trans hexec, (step_of_command hin' hw).trans hexec'⟩

/-- A run of `n + 1` steps goes on with `n` steps from where the first one leads. -/
theorem reaches_of_reaches_succ {n : Nat} {s t u : State} (hs : step s = .next t) (h : Reaches (n + 1) s u) :
    Reaches n t u := by
  have hcore : Host.Core.step Sys2Proof.core s = .next t := hs
  simpa only [Reaches, Host.Core.run, hcore] using h

/-- Settles O22, by induction on the number of steps: each step carries the earlier responses along. -/
theorem earlierResponsesInert : Obligations.EarlierResponsesInert := by
  intro n s t qs h
  change Reaches n (withEarlier qs s) (withEarlier qs t)
  induction n generalizing s with
  | zero =>
    obtain ⟨⟩ := h
    exact reaches_zero _
  | succ n ih =>
    obtain ⟨s', hstep, hstep'⟩ := step_withEarlier qs s
    exact reaches_succ hstep' (ih s' (reaches_of_reaches_succ hstep h))

/-! ### Runs of presented commands -/

/-- The commands, each well formed, take one state to the other when they are performed in order; the host's script
plays no part. -/
inductive Performs : List Instr → State → State → Prop where
  | nil (s : State) : Performs [] s s
  | cons {i : Instr} {is : List Instr} {s t u : State} (hwf : i.wellFormed = true) (hexec : exec i s = .next t)
      (hrest : Performs is t u) : Performs (i :: is) s u

theorem Performs.single {i : Instr} {s t : State} (hwf : i.wellFormed = true) (hexec : exec i s = .next t) :
    Performs [i] s t :=
  .cons hwf hexec (.nil t)

theorem Performs.append {is js : List Instr} {s t u : State} (h : Performs is s t) (h' : Performs js t u) :
    Performs (is ++ js) s u := by
  induction h with
  | nil => exact h'
  | cons hwf hexec _ ih => exact .cons hwf hexec (ih h')

/-- Commands that stand behind a command at the port are still there after it. -/
theorem exec_presentAll {i : Instr} {s t : State} (h : exec i s = .next t) (is : List Instr) :
    exec i (presentAll is s) = .next (presentAll is t) := by
  obtain ⟨v, l, c, q, hblind⟩ := exec_portBlind i s
  obtain rfl : _ = t := Host.Outcome.next.inj ((hblind s.incoming s.responses).symm.trans h)
  exact hblind ((assemble is).map .command ++ s.incoming) s.responses

/-- The machine performs a program presented to it, one command a step (R25, R34). -/
theorem Performs.reaches {is : List Instr} {s t : State} (h : Performs is s t) :
    Reaches is.length (presentAll is s) t := by
  induction h with
  | nil => exact reaches_zero _
  | cons hwf hexec _ ih => exact reaches_succ ((step_presentAll_cons hwf _ _).trans (exec_presentAll hexec _)) ih

/-- Commands that write nothing of the block in any state give their responses one after the other. -/
theorem performs_map_of_answered {α : Type} {cmd : α → Instr} {word : α → RspWord} {l : List α}
    (h : ∀ a ∈ l, (cmd a).wellFormed = true ∧ ∀ s, exec (cmd a) s = .next (answered (word a) s)) (s : State) :
    Performs (l.map cmd) s { s with responses := s.responses ++ l.map word } := by
  induction l generalizing s with
  | nil =>
    rw [List.map_nil, List.map_nil, List.append_nil]
    exact .nil s
  | cons a l ih =>
    obtain ⟨⟨hwf, hexec⟩, hrest⟩ := List.forall_mem_cons.mp h
    rw [List.map_cons, List.map_cons, List.append_cons]
    exact .cons hwf (hexec s) (ih hrest (answered (word a) s))

/-! ### NOP -/

theorem exec_nop (s : State) : exec .nop s = .next (answered 0x0000 s) := rfl

theorem performs_nops (n : Nat) (s : State) :
    Performs (List.replicate n .nop) s { s with responses := s.responses ++ List.replicate n 0x0000 } := by
  have h := performs_map_of_answered (l := List.replicate n ()) (fun _ _ => ⟨rfl, exec_nop⟩) s
  rwa [List.map_replicate, List.map_replicate] at h

/-- Settles O24: the command does the same with the responses of `n` NOPs at the port as without them. -/
theorem nopChangesNothing : Obligations.NopChangesNothing := by
  refine ⟨by decide, fun w hop => decode_rejects_of_formatZ fun h27 => decode_of_op_nop h27 hop, exec_nop, ?_⟩
  intro i s hwf
  obtain ⟨v, l, c, q, h⟩ := exec_portBlind i s
  refine ⟨v, l, c, q, h s.incoming s.responses, fun n => ?_⟩
  have hrun := (performs_nops n s).append (.single hwf (h s.incoming (s.responses ++ List.replicate n 0x0000)))
  have hlength : (List.replicate n Instr.nop ++ [i]).length = n + 1 := by simp
  exact hlength ▸ hrun.reaches

end Sys2Proof.Proofs
end

section
/-!
PROOFS. Family 42_composition_and_idle, O42, O43, O49 and O50. Cutting a keystream and a buffer in two, and how much
each function and each command gives.
-/
namespace Sys2Proof.Proofs

open Sys2Proof Sys2Proof.Machine Sys2Proof.Safety

/-! ### A keystream in two parts -/

@[simp] theorem length_generate (seed : Reg) (n : Nat) : (generate seed n).length = n := length_keystream n seed

/-- The keystream goes on from the register that its first part leaves (R63). -/
theorem generate_add (seed : Reg) (m n : Nat) :
    generate seed (m + n) = generate seed m ++ generate (advance m seed) n :=
  congrArg Prod.fst (keystream_add m n seed)

theorem take_generate (seed : Reg) (n m : Nat) : (generate seed m).take n = generate seed (min n m) := by
  rw [generate_eq_map, ← List.map_take, List.take_range, ← generate_eq_map]

theorem drop_generate (seed : Reg) (m n : Nat) : (generate seed (m + n)).drop m = generate (advance m seed) n := by
  rw [generate_add, List.drop_left' (length_generate seed m)]

/-- Settles O42: the beginning of a keystream is the keystream of that length. -/
theorem prefixStability : Obligations.PrefixStability := by
  intro seed n m h
  have htake : (generate seed m).take n = generate seed n := by rw [take_generate, Nat.min_eq_left h]
  exact ⟨htake, htake ▸ List.take_prefix n _⟩

/-! ### A buffer in two parts -/

/-- Byte `i` after the first `m` bytes meets the keystream as byte `m + i` does. -/
theorem transformByte_drop (ks : Bits) (m i : Nat) : transformByte (ks.drop (8 * m)) i = transformByte ks (m + i) := by
  refine funext fun b => byte_ext fun j hj => ?_
  have hindex : 8 * m + keyIndex i j = keyIndex (m + i) j := by
    unfold keyIndex
    omega
  have hbit : (ks.drop (8 * m)).getD (keyIndex i j) false = ks.getD (keyIndex (m + i) j) false := by
    rw [List.getD_eq_getElem?_getD, List.getElem?_drop, hindex, ← List.getD_eq_getElem?_getD]
  rw [byteBit_transformByte_eq_xor _ _ _ hj, byteBit_transformByte_eq_xor _ _ _ hj, hbit]

theorem transform_append (a b : List Byte) (ks : Bits) :
    transform (a ++ b) ks = transform a ks ++ transform b (ks.drop (8 * a.length)) := by
  unfold transform
  rw [List.zipIdx_append, List.map_append, List.zipIdx_eq_map_add (i := 0 + a.length), List.map_map]
  simp [transformByte_drop, Function.comp_def]

/-- Settles O49: the second part's bytes meet the keystream from the first one's end on. -/
theorem byteAtATime : Obligations.ByteAtATime := transform_append

/-! ### One response, one bit, one byte -/

/-- A word that occurs and whose STATUS is 0 is a DATA byte with zeros above (R30). -/
theorem eq_setWidth_of_occurs {q : RspWord} (hoccurs : occurs q = true) (hstatus : statusField q = 0) :
    q = (dataField q).setWidth 16 := by
  simp only [occurs, Bool.or_eq_true, decide_eq_true_eq, beq_iff_eq] at hoccurs
  obtain (hdata | rfl) | rfl := hoccurs
  · apply BitVec.eq_of_toNat_eq
    simp only [dataField, BitVec.toNat_setWidth, BitVec.extractLsb'_toNat]
    omega
  · exact absurd hstatus (by decide)
  · exact absurd hstatus (by decide)

/-- A STEP answered with STATUS 0 found the block loaded, and its response is the next keystream bit (R41, R70). -/
theorem step_response_of_ok {s t : State} {q : RspWord} (hexec : exec .step s = .next t)
    (hresp : t.responses = s.responses ++ [q]) (hstatus : statusField q = 0) : q = bitWord (regBit s.r 0) := by
  cases hloaded : s.loaded
  case true =>
    obtain rfl := Host.Outcome.next.inj ((exec_step_of_loaded hloaded).symm.trans hexec)
    exact (List.singleton_inj.mp (List.append_cancel_left hresp)).symm
  case false =>
    obtain rfl := Host.Outcome.next.inj ((exec_step_of_unloaded hloaded).symm.trans hexec)
    obtain rfl := List.singleton_inj.mp (List.append_cancel_left hresp)
    exact absurd hstatus (by decide)

/-- Settles O43: every command is answered once, with a word that occurs. -/
theorem lengthExactness : Obligations.LengthExactness := by
  refine ⟨length_generate, length_transform, fun i s t hexec => ?_, fun s t q hexec hresp hstatus => ?_,
    fun d k nv s t q hexec hresp hstatus => ?_⟩
  · obtain ⟨q, _, hnext, hresp, -⟩ := exec_answeredOnce i s
    obtain rfl := Host.Outcome.next.inj (hnext.symm.trans hexec)
    rw [hresp, List.length_append, List.length_singleton]
  · exact ⟨regBit s.r 0, rfl, step_response_of_ok hexec hresp hstatus⟩
  · obtain ⟨i, hexec⟩ : ∃ i, exec i s = .next t := hexec.elim (⟨_, ·⟩) (⟨_, ·⟩)
    obtain ⟨q', _, hnext, hresp', hoccurs, -⟩ := exec_answeredOnce i s
    obtain rfl := Host.Outcome.next.inj (hnext.symm.trans hexec)
    obtain rfl := List.singleton_inj.mp (List.append_cancel_left (hresp'.symm.trans hresp))
    exact ⟨dataField q', eq_setWidth_of_occurs hoccurs hstatus⟩

/-- Settles O50, by the rules for commands that take no key bit. -/
theorem zeroLengthIdentity : Obligations.ZeroLengthIdentity := by
  obtain ⟨-, -, -, -, -, hxork, -⟩ := xorkCiphersByte
  exact ⟨fun _ => rfl, fun _ => rfl, fun d k s => ⟨exec_xorl_zero d s, hxork d k s⟩⟩

end Sys2Proof.Proofs
end

section
/-!
PROOFS. Family 42_composition_and_idle, O51, O52, O53 and O54. Each function of the spec as the program that computes
it: one command per bit or byte, whose response is that bit or byte.
-/
namespace Sys2Proof.Proofs

open Sys2Proof Sys2Proof.Machine Sys2Proof.Safety

/-- Settles O51: the register after LOAD and `n` STEPs is the step iterated from the seed. -/
theorem generateAsCommands : Obligations.GenerateAsCommands := by
  intro s seed n
  have hrun := reaches_generateProgram seed n s
  rw [advance_eq_iterate] at hrun
  exact hrun

/-! ### XORK (R61) -/

theorem toNat_coverOperand (i L : Nat) : (coverOperand i L).toNat = coverCount i L := by
  have hle : coverCount i L ≤ 8 := Nat.min_le_left ..
  rw [coverOperand, BitVec.toNat_ofNat, Nat.mod_eq_of_lt (by omega)]

theorem toNat_coverOperand_le (i L : Nat) : (coverOperand i L).toNat ≤ 8 :=
  (toNat_coverOperand i L).trans_le (Nat.min_le_left ..)

theorem coverLegal_coverOperand (i L : Nat) : coverLegal (coverOperand i L) = true :=
  (coverLegal_eq_true_iff _).mpr (toNat_coverOperand_le i L)

/-- Of its key bits `xor_byte` reads the covered ones only (R49). -/
theorem xorByte_congr {kb kb' : Bits} {nv : Nat} (h : ∀ j < nv, kb.getD j false = kb'.getD j false) (d : Byte) :
    xorByte d kb nv = xorByte d kb' nv := by
  refine byte_ext fun j hj => ?_
  rw [byteBit_xorByte_ite _ _ _ hj, byteBit_xorByte_ite _ _ _ hj]
  split
  case isTrue hcovered => rw [h j hcovered]
  case isFalse => rfl

/-- XORK of byte `i` of a buffer is the byte of `transform`, when the key byte agrees with the keystream where the
cover count covers it. -/
theorem exec_xork_coverOperand {d k : Byte} {ks : Bits} {i : Nat}
    (hkey : ∀ j < coverCount i ks.length, byteBit k j = ks.getD (8 * i + j) false) (s : State) :
    exec (.xork d k (coverOperand i ks.length)) s =
      .next (answered ((transformByte ks i d).setWidth 16) s) := by
  have hle : coverCount i ks.length ≤ 8 := Nat.min_le_left ..
  have hbyte : d ^^^ (k &&& coverMask (coverCount i ks.length)) = transformByte ks i d := by
    rw [← xorByte_take_byteBits d k hle, transformByte_eq_xorByte, xorByte_take, xorByte_take]
    refine xorByte_congr (fun j hj => ?_) d
    rw [getD_byteBits k (by omega), hkey j hj, List.getD_eq_getElem?_getD, List.getD_eq_getElem?_getD,
      List.getElem?_drop]
  rw [exec_xork (toNat_coverOperand_le i ks.length), toNat_coverOperand, hbyte]

/-- The bytes of `transform`, listed beside the key bytes. -/
theorem transform_eq_map_zip {data keys : List Byte} (hlen : keys.length = data.length) (ks : Bits) :
    transform data ks = (data.zip keys).zipIdx.map fun p => transformByte ks p.2 p.1.1 := by
  have hdata : data = (data.zip keys).map Prod.fst := (List.map_fst_zip hlen.ge).symm
  rw [transform, hdata, List.zipIdx_map, List.map_map, ← hdata]
  rfl

/-- Settles O52: each XORK answers one byte of `transform` and writes nothing. -/
theorem transformAsXorkCommands : Obligations.TransformAsXorkCommands := by
  intro s data keys ks hlen hkeys
  have hrun := performs_map_of_answered (l := (data.zip keys).zipIdx)
    (cmd := fun p => .xork p.1.1 p.1.2 (coverOperand p.2 ks.length))
    (word := fun p => (transformByte ks p.2 p.1.1).setWidth 16) (fun p hp => ?_) s
  · have hlength : (xorkCommands data keys ks.length).length = data.length := by simp [xorkCommands, hlen]
    rw [← hlength, transform_eq_map_zip hlen, dataWords, List.map_map]
    exact hrun.reaches
  · obtain ⟨⟨d, k⟩, i⟩ := p
    obtain ⟨hd, hk⟩ := List.getElem?_zip_eq_some.mp (List.mem_zipIdx_iff_getElem?.mp hp)
    obtain ⟨hi, -⟩ := List.getElem?_eq_some_iff.mp hd
    refine ⟨coverLegal_coverOperand i ks.length, exec_xork_coverOperand fun j hj => ?_⟩
    rw [← hkeys i hi j hj, List.getD_eq_getElem?_getD, hk, Option.getD_some]

/-! ### XORL (R62) -/

theorem coverCount_zero (L : Nat) : coverCount 0 L = min 8 L := rfl

theorem coverOperand_succ (i L : Nat) : coverOperand (i + 1) L = coverOperand i (L - 8) := by
  have hcount : coverCount (i + 1) L = coverCount i (L - 8) := by
    unfold coverCount
    omega
  rw [coverOperand, hcount, coverOperand]

/-- Past the first byte the commands are those of the other bytes with what is left of the keystream. -/
theorem xorlCommands_cons (b : Byte) (data : List Byte) (L : Nat) :
    xorlCommands (b :: data) L = .xorl b (coverOperand 0 L) :: xorlCommands data (L - 8) := by
  unfold xorlCommands
  rw [List.zipIdx_cons, List.zipIdx_succ, List.map_cons, List.map_map]
  simp [coverOperand_succ, Function.comp_def]

@[simp] theorem length_xorlCommands (data : List Byte) (L : Nat) : (xorlCommands data L).length = data.length := by
  simp [xorlCommands]

/-- What is left of a keystream after the first byte begins at the register that the byte's steps leave. -/
theorem drop_8_generate (seed : Reg) (L : Nat) :
    (generate seed L).drop 8 = generate (advance (min 8 L) seed) (L - 8) := by
  obtain hlong | hshort := Nat.le_total 8 L
  · obtain ⟨k, rfl⟩ := Nat.exists_eq_add_of_le hlong
    rw [drop_generate, Nat.min_eq_left hlong, Nat.add_sub_cancel_left]
  · rw [List.drop_eq_nil_of_le ((length_generate seed L).trans_le hshort), Nat.sub_eq_zero_of_le hshort]
    rfl

/-- The first byte of a buffer is XORed with as many bits as the keystream has for it, the other bytes with the
keystream from there on. -/
theorem transform_cons_generate (b : Byte) (data : List Byte) (seed : Reg) (L : Nat) :
    transform (b :: data) (generate seed L) =
      xorByte b (generate seed (min 8 L)) (min 8 L) ::
        transform data (generate (advance (min 8 L) seed) (L - 8)) := by
  have hfirst : transform [b] (generate seed L) = [xorByte b (generate seed (min 8 L)) (min 8 L)] := by
    have hbyte := transformByte_eq_xorByte (generate seed L) 0 b
    rw [length_generate, coverCount_zero, Nat.mul_zero, List.drop_zero, take_generate,
      Nat.min_eq_left (Nat.min_le_right ..)] at hbyte
    exact congrArg (List.cons · []) hbyte
  rw [← List.singleton_append, transform_append, hfirst, ← drop_8_generate]
  rfl

/-- A loaded block XORs a buffer with the keystream from where its register stands, one XORL per byte. -/
theorem performs_xorlCommands (data : List Byte) (L : Nat) {s : State} (h : s.loaded = true) :
    Performs (xorlCommands data L) s
      { s with r := advance (min L (8 * data.length)) s.r,
               responses := s.responses ++ dataWords (transform data (generate s.r L)) } := by
  induction data generalizing L s with
  | nil =>
    have hdata : dataWords (transform [] (generate s.r L)) = [] := rfl
    rw [hdata, List.append_nil, List.length_nil, Nat.mul_zero, Nat.min_zero]
    exact .nil s
  | cons b data ih =>
    have hfirst := exec_xorl_of_passes (d := b) (toNat_coverOperand_le 0 L) (.inr h)
    rw [toNat_coverOperand, coverCount_zero] at hfirst
    have hsteps : min L (8 * (b :: data).length) = min 8 L + min (L - 8) (8 * data.length) := by
      rw [List.length_cons]
      omega
    rw [xorlCommands_cons, transform_cons_generate, hsteps, advance_add, dataWords, List.map_cons, List.append_cons]
    exact .cons (coverLegal_coverOperand 0 L) hfirst (ih (L - 8) h)

theorem performs_transformProgram (seed : Reg) (data : List Byte) (L : Nat) (s : State) :
    Performs (transformProgram seed data L) s
      { s with r := advance (min L (8 * data.length)) seed, loaded := true,
               responses := s.responses ++ 0x0000 :: dataWords (transform data (generate seed L)) } := by
  rw [List.append_cons]
  exact .cons rfl (exec_load seed s)
    (performs_xorlCommands data L (s := answered 0x0000 { s with r := seed, loaded := true }) rfl)

/-- The keystream beyond the last data byte is never read (R52(a)). -/
theorem transform_generate_min (data : List Byte) (seed : Reg) (L : Nat) :
    transform data (generate seed (min L (8 * data.length))) = transform data (generate seed L) := by
  obtain ⟨htake, -⟩ := transformProperties
  rw [htake data (generate seed L), take_generate, Nat.min_comm]

/-- Settles O53: of a keystream of `L` bits the commands take those that meet a data byte. -/
theorem transformAsXorlCommands : Obligations.TransformAsXorlCommands := by
  refine fun s seed data L => ⟨?_, transform_generate_min data seed L, fun hL => by rw [hL]; rfl⟩
  have hlength : (transformProgram seed data L).length = data.length + 1 := by simp [transformProgram]
  rw [transform_generate_min, ← hlength]
  exact (performs_transformProgram seed data L s).reaches

/-! ### The composed cipher (R54, R55) -/

theorem xorlCommands_of_covered {data : List Byte} {L : Nat} (h : 8 * data.length ≤ L) :
    xorlCommands data L = data.map xorlFull := by
  induction data generalizing L with
  | nil => rfl
  | cons b data ih =>
    rw [List.length_cons] at h
    have hcover : coverOperand 0 L = 8 := by rw [coverOperand, coverCount_of_covered (by omega)]; rfl
    rw [xorlCommands_cons, hcover, ih (by omega)]
    rfl

theorem performs_cipherProgram (seed : Reg) (data : List Byte) (s : State) :
    Performs (cipherProgram seed data) s
      { s with r := advance (8 * data.length) seed, loaded := true,
               responses := s.responses ++ 0x0000 :: dataWords (cipher seed data) } := by
  have hrun := performs_transformProgram seed data (8 * data.length) s
  rw [transformProgram, xorlCommands_of_covered le_rfl, Nat.min_self] at hrun
  exact hrun

@[simp] theorem length_cipherProgram (seed : Reg) (data : List Byte) :
    (cipherProgram seed data).length = data.length + 1 := by
  simp [cipherProgram]

/-- Settles O54: the cipher's program is the one of R62 for a keystream of `8m` bits, and a DROP can follow it. -/
theorem cipherAsCommands : Obligations.CipherAsCommands := by
  intro s seed data
  have hrun := performs_cipherProgram seed data s
  refine ⟨length_cipherProgram seed data ▸ hrun.reaches,
    Config.unspecifiedReg s.draws (advance (8 * data.length) seed), ?_⟩
  have hdrop := hrun.append (.single rfl (exec_drop _))
  have hlength : (cipherProgram seed data ++ [Instr.drop]).length = data.length + 2 := by simp
  exact hlength ▸ hdrop.reaches

end Sys2Proof.Proofs
end

section
/-!
PROOFS. Family 42_composition_and_idle, O55 and O56. Between a LOAD and the next LOAD or DROP every command takes its
bits from where the last one stopped; and the same bits met twice cancel.
-/
namespace Sys2Proof.Proofs

open Sys2Proof Sys2Proof.Machine Sys2Proof.Safety

/-! ### One keystream (R63) -/

theorem statusField_setWidth (b : Byte) : statusField (b.setWidth 16) = 0 := by
  rw [← responseWord_ok, statusField_responseWord]
  rfl

theorem statusField_bitWord (k : Bool) : statusField (bitWord k) = 0 := by
  cases k <;> rfl

/-- A command that is neither LOAD nor DROP is answered OK by a loaded block and moves the register on by the bits it
takes, and that is all it does. -/
theorem exec_of_continues {i : Instr} {s : State} (hwf : i.wellFormed = true) (hcontinues : continues i = true)
    (hloaded : s.loaded = true) :
    ∃ q : RspWord, statusField q = 0 ∧
      exec i s = .next (answered q { s with r := advance (bitsTaken i) s.r }) := by
  cases i with
  | nop => exact ⟨0x0000, rfl, exec_nop s⟩
  | load seed => cases hcontinues
  | step => exact ⟨_, statusField_bitWord _, exec_step_of_loaded hloaded⟩
  | xorl d nv =>
    exact ⟨_, statusField_setWidth _, exec_xorl_of_passes ((coverLegal_eq_true_iff nv).mp hwf) (.inr hloaded)⟩
  | xork d k nv => exact ⟨_, statusField_setWidth _, exec_xork ((coverLegal_eq_true_iff nv).mp hwf)⟩
  | drop => cases hcontinues

theorem performs_of_continues {cmds : List Instr} {s : State}
    (hcmds : ∀ i ∈ cmds, i.wellFormed = true ∧ continues i = true) (hloaded : s.loaded = true) :
    ∃ qs : List RspWord, qs.length = cmds.length ∧ (∀ q ∈ qs, statusField q = 0) ∧
      Performs cmds s
        { s with r := advance (cmds.map bitsTaken).sum s.r, responses := s.responses ++ qs } := by
  induction cmds generalizing s with
  | nil =>
    refine ⟨[], rfl, List.forall_mem_nil _, ?_⟩
    rw [List.append_nil]
    exact .nil s
  | cons i cmds ih =>
    obtain ⟨⟨hwf, hcontinues⟩, hrest⟩ := List.forall_mem_cons.mp hcmds
    obtain ⟨q, hq, hexec⟩ := exec_of_continues hwf hcontinues hloaded
    obtain ⟨qs, hlength, hqs, hrun⟩ := ih (s := answered q { s with r := advance (bitsTaken i) s.r }) hrest hloaded
    refine ⟨q :: qs, congrArg (· + 1) hlength, List.forall_mem_cons.mpr ⟨hq, hqs⟩, ?_⟩
    rw [List.map_cons, List.sum_cons, advance_add, List.append_cons]
    exact .cons hwf hexec hrun

/-- Settles O55: the register after `a` steps stands at bit `a` of its seed's keystream. -/
theorem keystreamContinues : Obligations.KeystreamContinues := by
  intro seed a s hloaded hreg
  refine ⟨?_, fun d nv hcover => ?_, fun cmds hcmds => ?_⟩
  · rw [getD_generate seed (Nat.lt_succ_self a), advance_succ', keyBit, ← hreg]
    exact exec_step_of_loaded hloaded
  · rw [drop_generate, advance_add, ← hreg]
    exact exec_xorl_of_passes hcover (.inr hloaded)
  · obtain ⟨qs, hlength, hqs, hrun⟩ := performs_of_continues hcmds hloaded
    rw [advance_add, ← hreg]
    exact ⟨qs, hlength, hqs, hrun.reaches⟩

/-! ### Involution (R64) -/

@[simp] theorem length_cipher (seed : Reg) (data : List Byte) : (cipher seed data).length = data.length :=
  length_transform data _

theorem cipher_cipher (seed : Reg) (data : List Byte) : cipher seed (cipher seed data) = data := by
  have hsame : cipher seed (cipher seed data) = transform (cipher seed data) (generate seed (8 * data.length)) := by
    rw [cipher, length_cipher]
  exact hsame.trans (transform_transform data _)

/-- Settles O56: the bytes between are those of the cipher, and for XORK the data byte XORed with the covered key
bits. -/
theorem involution : Obligations.Involution := by
  have hruns (seed : Reg) (data : List Byte) (s : State) :
      ∃ t, Reaches (data.length + 1) (presentAll (cipherProgram seed data) s) t ∧
        t.responses = s.responses ++ 0x0000 :: dataWords (cipher seed data) :=
    ⟨_, (cipherAsCommands s seed data).1, rfl⟩
  refine ⟨cipher_cipher, fun seed data => ⟨cipher seed data, length_cipher seed data, hruns seed data, fun s => ?_⟩,
    fun d k nv hcover => ⟨d ^^^ (k &&& coverMask nv.toNat), fun s => ⟨exec_xork hcover, ?_⟩⟩⟩
  · have hback := hruns seed (cipher seed data) s
    rwa [cipher_cipher] at hback
  · rw [exec_xork hcover, BitVec.xor_assoc, BitVec.xor_self, BitVec.xor_zero]

end Sys2Proof.Proofs
end

section
/-!
PROOFS. Family 60_exceptions, O58, O16 and O14. Every step goes on, so a step of one block of a system puts its next
state in its place and leaves all others where they are.
-/
namespace Sys2Proof.Proofs

open Sys2Proof Sys2Proof.Machine Sys2Proof.Safety

/-- Settles O14, which is the rule for a step with nothing at the port. -/
theorem idleStepHolds : Obligations.IdleStepHolds :=
  fun _ => step_of_idle

/-- Settles O16, by the event at the port: a command is answered, reset is taken, and otherwise the state holds. -/
theorem stepAlwaysAnswers : Obligations.StepAlwaysAnswers := by
  intro s
  cases hin : s.incoming with
  | nil => exact ⟨s, step_of_idle hin⟩
  | cons event rest =>
    cases event with
    | reset => exact ⟨_, step_of_reset hin⟩
    | command w =>
      obtain ⟨-, t, hnext, -⟩ := step_answeredOnce hin
      exact ⟨t, hnext⟩

theorem stepInstance_eq_set {sys : System} {i : Nat} {s t : State} (hs : sys[i]? = some s) (hstep : step s = .next t) :
    stepInstance i sys = sys.set i t := by
  simp [stepInstance, hs, hstep]

theorem getElem?_stepInstance_self {sys : System} {i : Nat} {s t : State} (hs : sys[i]? = some s)
    (hstep : step s = .next t) : (stepInstance i sys)[i]? = some t := by
  obtain ⟨hi, -⟩ := List.getElem?_eq_some_iff.mp hs
  rw [stepInstance_eq_set hs hstep, List.getElem?_set_self hi]

/-- A step of one block of a system moves no other (R77). -/
theorem getElem?_stepInstance_of_ne {i j : Nat} (hne : j ≠ i) (sys : System) : (stepInstance j sys)[i]? = sys[i]? := by
  cases hj : sys[j]? with
  | none => simp [stepInstance, hj]
  | some u =>
    obtain ⟨v, hstep⟩ := stepAlwaysAnswers u
    rw [stepInstance_eq_set hj hstep, List.getElem?_set_ne hne]

/-- Settles O58, by induction on the schedule: its first step is the block's own, or does not move it. -/
theorem instancesIndependent : Obligations.InstancesIndependent := by
  intro schedule
  induction schedule with
  | nil => exact fun sys i s hs => ⟨s, reaches_zero s, hs⟩
  | cons j schedule ih =>
    intro sys i s hs
    by_cases hj : j = i
    · subst hj
      obtain ⟨s', hstep⟩ := stepAlwaysAnswers s
      obtain ⟨t, hreach, ht⟩ := ih _ j s' (getElem?_stepInstance_self hs hstep)
      rw [List.count_cons_self]
      exact ⟨t, reaches_succ hstep hreach, ht⟩
    · rw [List.count_cons_of_ne hj]
      exact ih _ i s ((getElem?_stepInstance_of_ne hj sys).trans hs)

end Sys2Proof.Proofs
end

section
/-!
PROOFS. Family 60_exceptions, O11, O30 and O31. The two errors: an illegal word is answered ILLEGAL_COMMAND whatever
the state; a command of the block is answered NOT_LOADED when it takes a keystream bit of an unloaded block, and OK
otherwise.
-/
namespace Sys2Proof.Proofs

open Sys2Proof Sys2Proof.Machine Sys2Proof.Safety

/-! ### ILLEGAL_COMMAND (R69, R71) -/

theorem step_of_illegal_answered {s : State} {w : CmdWord} {rest : List HostEvent} {e : DecodeError}
    (h : s.incoming = .command w :: rest) (hw : decode w = .error e) :
    step s = .next (answered 0x0100 { s with incoming := rest }) :=
  step_of_illegal h hw

theorem incoming_withFetchWord (s : State) (w : CmdWord) :
    (s.withFetchWord 32 w.toNat).incoming = .command w :: s.incoming := by
  have hword : tableWord 32 w.toNat = w := by
    rw [tableWord, Nat.mod_eq_of_lt w.isLt, BitVec.ofNat_toNat, BitVec.setWidth_eq]
  rw [State.withFetchWord, hword, present_incoming]

/-- Settles O11, by the rule for a step that takes an illegal word; the decoder rejects the seven printed words. -/
theorem illegalWordIsAnswered : Obligations.IllegalWordIsAnswered := by
  refine ⟨fun s w rest e => step_of_illegal_answered, fun w hw s => ?_⟩
  have hrejected : (decode w).isOk = false := by fin_cases hw <;> decide
  cases hdecode : decode w with
  | error e => exact step_of_illegal_answered (incoming_withFetchWord s w) hdecode
  | ok i =>
    rw [hdecode] at hrejected
    cases hrejected

/-! ### NOT_LOADED (R70) -/

theorem bitsTaken_pos_iff (i : Instr) :
    1 ≤ bitsTaken i ↔ i = .step ∨ ∃ d nv, i = .xorl d nv ∧ 1 ≤ nv.toNat := by
  cases i <;> simp [bitsTaken]

/-- A command that takes a keystream bit of an unloaded block raises NOT_LOADED. -/
theorem exec_raises_notLoaded {i : Instr} {s : State} (hwf : i.wellFormed = true) (hbits : 1 ≤ bitsTaken i)
    (hunloaded : s.loaded = false) : exec i s = .next (answered 0x0200 s) := by
  cases i with
  | nop | load _ | xork _ _ _ | drop => cases hbits
  | step => exact exec_step_of_unloaded hunloaded
  | xorl d nv => exact exec_xorl_of_unloaded hbits ((coverLegal_eq_true_iff nv).mp hwf) hunloaded

/-- A command that takes no keystream bit, or finds the block loaded, is answered OK. -/
theorem exec_answers_ok {i : Instr} {s : State} (hwf : i.wellFormed = true)
    (h : bitsTaken i = 0 ∨ s.loaded = true) :
    ∃ q u, statusField q = 0 ∧ exec i s = .next (answered q u) ∧ u.responses = s.responses := by
  cases i with
  | nop => exact ⟨0x0000, _, rfl, exec_nop s, rfl⟩
  | load seed => exact ⟨0x0000, _, rfl, exec_load seed s, rfl⟩
  | step =>
    have hloaded : s.loaded = true := h.resolve_left Nat.one_ne_zero
    exact ⟨_, _, statusField_bitWord _, exec_step_of_loaded hloaded, rfl⟩
  | xorl d nv =>
    exact ⟨_, _, statusField_setWidth _, exec_xorl_of_passes ((coverLegal_eq_true_iff nv).mp hwf) h, rfl⟩
  | xork d k nv => exact ⟨_, _, statusField_setWidth _, exec_xork ((coverLegal_eq_true_iff nv).mp hwf), rfl⟩
  | drop => exact ⟨0x0000, _, rfl, exec_drop s, rfl⟩

/-- Everything a command of the block can be answered: NOT_LOADED with nothing written, or OK. -/
theorem exec_notLoaded_or_ok {i : Instr} (hwf : i.wellFormed = true) (s : State) :
    ((1 ≤ bitsTaken i ∧ s.loaded = false) ∧ exec i s = .next (answered 0x0200 s)) ∨
      (¬(1 ≤ bitsTaken i ∧ s.loaded = false) ∧
        ∃ q u, statusField q = 0 ∧ exec i s = .next (answered q u) ∧ u.responses = s.responses) := by
  by_cases h : 1 ≤ bitsTaken i ∧ s.loaded = false
  · exact .inl ⟨h, exec_raises_notLoaded hwf h.1 h.2⟩
  · refine .inr ⟨h, exec_answers_ok hwf ?_⟩
    rwa [not_and_or, Bool.not_eq_false, Nat.not_le, Nat.lt_one_iff] at h

/-- The response of a step is the one it adds to those before it. -/
theorem eq_of_answered_responses {s u : State} {q q' : RspWord} (hu : u.responses = s.responses)
    (h : (answered q u).responses = s.responses ++ [q']) : q = q' := by
  simpa [answered, hu] using h

/-- Settles O30: a response with STATUS 0 is not 0x0200, so the two cases exclude each other. -/
theorem notLoadedExactly : Obligations.NotLoadedExactly := by
  refine ⟨fun i s hwf => ?_, ?_, ?_, ?_⟩
  · rw [← bitsTaken_pos_iff, and_comm]
    obtain ⟨hraises, hexec⟩ | ⟨hpasses, q, u, hstatus, hexec, hresp⟩ := exec_notLoaded_or_ok hwf s
    · exact iff_of_true hexec hraises
    · refine iff_of_false (fun hraised => ?_) hpasses
      have hanswers : answered q u = answered 0x0200 s := Host.Outcome.next.inj (hexec.symm.trans hraised)
      obtain rfl : q = 0x0200 := eq_of_answered_responses hresp (congrArg State.responses hanswers)
      exact absurd hstatus (by decide)
  · have hword : decode 0x20000000 = .ok .step := by decide
    exact (step_of_command (incoming_withFetchWord _ _) hword).trans (exec_step_of_unloaded rfl)
  · have hword : decode 0x30010012 = .ok (.xorl 0x12 1) := by decide
    exact (step_of_command (incoming_withFetchWord _ _) hword).trans
      (exec_xorl_of_unloaded (by decide) (by decide) rfl)
  · have hword : decode 0x30000012 = .ok (.xorl 0x12 0) := by decide
    exact (step_of_command (incoming_withFetchWord _ _) hword).trans (exec_xorl_zero 0x12 _)

/-! ### Errors are precise (R68, R87) -/

/-- Everything a command word can be answered: one of the two error words with nothing written, or OK. -/
theorem step_error_or_ok {s : State} {w : CmdWord} {rest : List HostEvent} (hin : s.incoming = .command w :: rest) :
    (∃ q, (q = 0x0100 ∨ q = 0x0200) ∧ step s = .next (answered q { s with incoming := rest })) ∨
      ∃ q u, statusField q = 0 ∧ step s = .next (answered q u) ∧ u.responses = s.responses := by
  cases hw : decode w with
  | error e => exact .inl ⟨0x0100, .inl rfl, step_of_illegal_answered hin hw⟩
  | ok i =>
    obtain ⟨hwf, -⟩ := fieldsOf_of_decode hw
    rw [step_of_command hin hw]
    obtain ⟨-, hexec⟩ | ⟨-, hok⟩ := exec_notLoaded_or_ok hwf { s with incoming := rest }
    · exact .inl ⟨0x0200, .inr rfl, hexec⟩
    · exact .inr hok

/-- Settles O31: of the answers a command word can get, the one with a status other than 0 wrote nothing. -/
theorem errorsArePrecise : Obligations.ErrorsArePrecise := by
  intro s t w rest q hin hstep hresp hstatus
  obtain ⟨q', herror, hanswer⟩ | ⟨q', u, hok, hanswer, hu⟩ := step_error_or_ok hin
  · obtain rfl : answered q' { s with incoming := rest } = t := Host.Outcome.next.inj (hanswer.symm.trans hstep)
    obtain rfl : q' = q := eq_of_answered_responses rfl hresp
    refine ⟨herror, ?_, rfl⟩
    obtain rfl | rfl := herror <;> decide
  · obtain rfl : answered q' u = t := Host.Outcome.next.inj (hanswer.symm.trans hstep)
    obtain rfl : q' = q := eq_of_answered_responses hu hresp
    exact absurd hok hstatus

end Sys2Proof.Proofs
end

section
/-!
PROOFS. Family 70_reset_and_hazards, O15, O57 and O13. What reset leaves, what the first command after it is answered,
and a second buffer sent without a LOAD between.
-/
namespace Sys2Proof.Proofs

open Sys2Proof Sys2Proof.Machine Sys2Proof.Safety

/-! ### Reset (R78, R79) -/

/-- Settles O13, which is the rule for a step that takes reset. -/
theorem resetEventEffect : Obligations.ResetEventEffect :=
  fun s _ hin => ⟨Config.unspecifiedReg s.draws s.r, step_of_reset hin⟩

theorem step_withFetchWord_encode {i : Instr} (hwf : i.wellFormed = true) (s : State) :
    step (s.withFetchWord 32 (encode i).toNat) = exec i s :=
  step_of_command (incoming_withFetchWord s (encode i)) (decodeOfEncode i hwf)

/-- Settles O15: the block is unloaded after reset, so a command raises NOT_LOADED exactly when it takes a keystream
bit, and a response with STATUS 0 is not 0x0200. -/
theorem firstCommandAfterReset : Obligations.FirstCommandAfterReset := by
  refine ⟨rfl, fun i hwf => ?_,
    fun w e hw => ⟨_, step_of_illegal_answered (incoming_withFetchWord State.reset w) hw, rfl⟩⟩
  rw [step_withFetchWord_encode hwf, ← bitsTaken_pos_iff]
  obtain ⟨⟨hbits, -⟩, hexec⟩ | ⟨hpasses, q, u, hstatus, hexec, hresp⟩ := exec_notLoaded_or_ok hwf State.reset
  · exact ⟨_, hexec, 0x0200, rfl, iff_of_true rfl hbits, fun hne => absurd rfl hne⟩
  · have hnot : q ≠ 0x0200 := by
      rintro rfl
      exact absurd hstatus (by decide)
    have hone : (answered q u).responses = [q] := congrArg (· ++ [q]) hresp
    exact ⟨_, hexec, q, hone, iff_of_false hnot fun hbits => hpasses ⟨hbits, rfl⟩, fun _ => hstatus⟩

/-! ### A second buffer without a LOAD (R84) -/

/-- Full XORLs on a loaded block are the cipher with the register for the seed. -/
theorem performs_map_xorlFull (data : List Byte) {s : State} (h : s.loaded = true) :
    Performs (data.map xorlFull) s
      { s with r := advance (8 * data.length) s.r, responses := s.responses ++ dataWords (cipher s.r data) } := by
  have hrun := performs_xorlCommands data (8 * data.length) h
  rwa [xorlCommands_of_covered le_rfl, Nat.min_self] at hrun

/-- Settles O57: the second buffer's keystream is the one from the register that the first buffer leaves. -/
theorem secondMessageContinues : Obligations.SecondMessageContinues := by
  intro s seed first second
  have hrun := (performs_cipherProgram seed first s).append (performs_map_xorlFull second rfl)
  have hlength : (cipherProgram seed first ++ second.map xorlFull).length = first.length + second.length + 1 := by
    simp only [List.length_append, length_cipherProgram, List.length_map]
    omega
  rw [Nat.mul_add, drop_generate, advance_add, ← hlength]
  exact hrun.reaches

end Sys2Proof.Proofs
end

section
/-!
PROOFS. Family other, O12, O19 and O32. A table word placed for the next step, the record of responses at reset, and
the commands with a cover count that no word carries.
-/
namespace Sys2Proof.Proofs

open Sys2Proof Sys2Proof.Machine Sys2Proof.Safety

/-- A table word reads as a command exactly when the block's decoder accepts the word it stands for. -/
theorem decodeTableWord_eq_some_iff {nbits w : Nat} {i : Instr} :
    decodeTableWord nbits w = some i ↔ decode (tableWord nbits w) = .ok i := by
  unfold decodeTableWord
  cases decode (tableWord nbits w) <;> simp

/-- Settles O12: the placed word is the next event at the port, and behind it the port is the state's own. -/
theorem fetchWordRuns : Obligations.FetchWordRuns := by
  intro s nbits w i htable
  have hin : (s.withFetchWord nbits w).incoming = .command (tableWord nbits w) :: s.incoming := present_incoming _ s
  exact step_of_command hin (decodeTableWord_eq_some_iff.mp htable)

theorem responses_reset : State.reset.responses = [] := rfl

/-- Settles O19: no response is recorded at reset (log entry 4). -/
theorem resetResponsesOccur : Obligations.ResetResponsesOccur := by
  intro q hq
  rw [responses_reset] at hq
  exact absurd hq List.not_mem_nil

/-- Settles O32: a count of 9 to 15 fails the cover check, which both commands make first (log entry 9). -/
theorem coverOutsideEncoding : Obligations.CoverOutsideEncoding :=
  fun d k nv s hcover => exec_cover_illegal d k nv s ((coverLegal_eq_false_iff nv).mpr hcover)

end Sys2Proof.Proofs
end
